-- ==== Sys2Proof/Word.lean ====
section
/-! DEFINITION. The word types of the block: widths only (00_scope.md R7, R8; 10_state.md R20). -/

namespace Sys2Proof

/-- A register, ALU or address value, `XLEN` = `AW` = 16 bits (R7). -/
abbrev Word := BitVec 16

/-- One byte of memory (R60). -/
abbrev Byte := BitVec 8

/-- A 4-bit register field rd, rs or ro of an instruction word (R21). -/
abbrev RegField := BitVec 4

/-- An index of the register file, 0 to 63 (R20). -/
abbrev RegIx := Fin 64

end Sys2Proof
end

