-- ==== Sys2Proof/Config.lean ====
section
/-! DEFINITION. The parameters the spec leaves OPEN (00_scope.md R7; 92_eei_decisions.md D2, D18), as plain data.
A machine carries its parameters in its state (log 1, log 2), so that a claim over every state is a claim over every
choice of them; no step changes them. -/

namespace Sys2Proof

/-- The OPEN parameters of the block (R7, R22, R370). Which values are admissible is said in `WellFormed.lean`. -/
structure Params where
  /-- `REG_SP`, the index of the stack pointer. -/
  regSp : RegIx
  /-- `REG_IP`, the index of the instruction pointer. -/
  regIp : RegIx
  /-- `REG_FL`, the index of the flags register. -/
  regFl : RegIx
  /-- `TRACE_REGS`, the set of indices a trace event carries, as a strictly rising list. -/
  traceRegs : List RegIx
deriving DecidableEq, Repr

end Sys2Proof
end

