-- ==== Sys2Proof/Syntax.lean ====
section
/-! DEFINITION. The instructions: one constructor for each row of spec/opcode_table.json (30_encoding.md R103), the
reserved and unsupported rows included, and the 16 condition codes (42_control.md R261). -/

namespace Sys2Proof

/-- The condition codes 0 to 15 by their suffixes (R123, R261). -/
inductive Cond where
  | nv | a | ae | b | be | g | ge | l | le | e | ne | o | no | al | n14 | n15
deriving DecidableEq, Repr

/-- An instruction, with every field its word carries. A field the spec calls ignored (R121) is carried too, without
effect, so that an instruction determines its word. -/
inductive Instr where
  /-- HLT (R266). -/
  | hlt
  /-- NOT rd (R151). -/
  | not (rd : RegField)
  /-- NEG rd (R152). -/
  | neg (rd : RegField)
  /-- PUSH rd (R153). -/
  | push (rd : RegField)
  /-- POP rd (R154). -/
  | pop (rd : RegField)
  /-- INC rd (R155). -/
  | inc (rd : RegField)
  /-- DEC rd (R156). -/
  | dec (rd : RegField)
  /-- unsupported 1-operand selector 0, rd ≠ 0 (R117). -/
  | unsupSel0 (rd : RegField)
  /-- unsupported 1-operand selector 7 (R117). -/
  | unsupSel7 (rd : RegField)
  /-- unsupported 1-operand selectors 8 to 15; `sel` is the selector's low 3 bits (R117). -/
  | unsupSel8to15 (sel : BitVec 3) (rd : RegField)
  /-- ADD rd, rs (R217). -/
  | add (rd rs : RegField)
  /-- SUB rd, rs (R218). -/
  | sub (rd rs : RegField)
  /-- OR rd, rs (R219). -/
  | or (rd rs : RegField)
  /-- NOR rd, rs (R220). -/
  | nor (rd rs : RegField)
  /-- AND rd, rs (R221). -/
  | and (rd rs : RegField)
  /-- NAND rd, rs (R222). -/
  | nand (rd rs : RegField)
  /-- XOR rd, rs (R223). -/
  | xor (rd rs : RegField)
  /-- XNOR rd, rs (R224). -/
  | xnor (rd rs : RegField)
  /-- ADC rd, rs (R225). -/
  | adc (rd rs : RegField)
  /-- SBB rd, rs (R226). -/
  | sbb (rd rs : RegField)
  /-- CMP rd, rs (R227). -/
  | cmp (rd rs : RegField)
  /-- ALU.n rd, rs for the ALU ops 12 to 15; `n` is the op's low 2 bits (R228). -/
  | aluN (n : BitVec 2) (rd rs : RegField)
  /-- JMP.cc rd, mode 0 (R262). -/
  | jmpReg (cc : Cond) (rd : RegField)
  /-- JMP.cc [rd], mode 1 (R263). -/
  | jmpInd (cc : Cond) (rd : RegField)
  /-- JMP.cc #imm16, mode 2; `ign` is the ignored rd field (R264, R121). -/
  | jmpImm (cc : Cond) (ign : RegField) (imm16 : Word)
  /-- unsupported jump mode 3 (R118). -/
  | unsupMode3 (cc : Cond) (rd : RegField)
  /-- unsupported jump modes 4 to 7; `m` is the mode's low 2 bits (R118). -/
  | unsupMode4to7 (cc : Cond) (rd : RegField) (m : BitVec 2)
  /-- unsupported jump modes 8 to 15; `m` is the mode's low 3 bits (R118). -/
  | unsupMode8to15 (cc : Cond) (rd : RegField) (m : BitVec 3)
  /-- ALUI.0 rd, #imm4 (R240). -/
  | aluI0 (rd : RegField) (imm4 : BitVec 4)
  /-- ADDI rd, #imm4 (R229). -/
  | addi (rd : RegField) (imm4 : BitVec 4)
  /-- SUBI rd, #imm4 (R230). -/
  | subi (rd : RegField) (imm4 : BitVec 4)
  /-- ORI rd, #imm4 (R231). -/
  | ori (rd : RegField) (imm4 : BitVec 4)
  /-- NORI rd, #imm4 (R232). -/
  | nori (rd : RegField) (imm4 : BitVec 4)
  /-- ANDI rd, #imm4 (R233). -/
  | andi (rd : RegField) (imm4 : BitVec 4)
  /-- NANDI rd, #imm4 (R234). -/
  | nandi (rd : RegField) (imm4 : BitVec 4)
  /-- XORI rd, #imm4 (R235). -/
  | xori (rd : RegField) (imm4 : BitVec 4)
  /-- XNORI rd, #imm4 (R236). -/
  | xnori (rd : RegField) (imm4 : BitVec 4)
  /-- ADCI rd, #imm4 (R237). -/
  | adci (rd : RegField) (imm4 : BitVec 4)
  /-- SBBI rd, #imm4 (R238). -/
  | sbbi (rd : RegField) (imm4 : BitVec 4)
  /-- CMPI rd, #imm4 (R239). -/
  | cmpi (rd : RegField) (imm4 : BitVec 4)
  /-- ALUI.n rd, #imm4 for the ALU ops 12 to 15; `n` is the op's low 2 bits (R240). -/
  | aluIN (n : BitVec 2) (rd : RegField) (imm4 : BitVec 4)
  /-- JR.cc #off8 (R265). -/
  | jr (cc : Cond) (off8 : Byte)
  /-- LD rd, [rs + ro] (R300). -/
  | ld (rd rs ro : RegField)
  /-- ST [rd + ro], rs (R301). -/
  | st (rd rs ro : RegField)
  /-- reserved top nibbles 0110 and 0111; `low` is bits 12:0 (R116). -/
  | reserved6to7 (low : BitVec 13)
  /-- LDI rd, #imm8 (R302). -/
  | ldi (rd : RegField) (imm8 : Byte)
  /-- LDW rd, #imm16; `ign` is the ignored byte (R303, R121). -/
  | ldw (rd : RegField) (ign : Byte) (imm16 : Word)
  /-- reserved top nibble 1010; `low` is bits 11:0 (R116). -/
  | reservedA (low : BitVec 12)
  /-- MOVX xD, xS (R304). -/
  | movx (rd rs : RegField) (bankDest bankSrc : BitVec 2)
  /-- reserved top nibbles 1100 to 1111; `low` is bits 13:0 (R116). -/
  | reservedCtoF (low : BitVec 14)
deriving DecidableEq, Repr

end Sys2Proof
end

