-- ==== Sys2Proof/WellFormed.lean ====
section
/-! DEFINITION. Which instructions and which parameters are well formed. Field widths are in the types of `Instr`; the
one further check is that selector 0 with rd = 0 is the halt word and no unsupported selector (30_encoding.md R117). -/

namespace Sys2Proof

/-- Well-formed instructions: the row "selector 0" excludes the word `0x0000`, which is HLT (R113, R117). -/
def Instr.wf : Instr → Bool
  | .unsupSel0 rd => rd != 0#4
  | .hlt => true
  | .not _ | .neg _ | .push _ | .pop _ | .inc _ | .dec _ | .unsupSel7 _ | .unsupSel8to15 _ _ => true
  | .add _ _ | .sub _ _ | .or _ _ | .nor _ _ | .and _ _ | .nand _ _ | .xor _ _ | .xnor _ _ => true
  | .adc _ _ | .sbb _ _ | .cmp _ _ | .aluN _ _ _ => true
  | .jmpReg _ _ | .jmpInd _ _ | .jmpImm _ _ _ | .unsupMode3 _ _ | .unsupMode4to7 _ _ _ => true
  | .unsupMode8to15 _ _ _ => true
  | .aluI0 _ _ | .addi _ _ | .subi _ _ | .ori _ _ | .nori _ _ | .andi _ _ | .nandi _ _ | .xori _ _ => true
  | .xnori _ _ | .adci _ _ | .sbbi _ _ | .cmpi _ _ | .aluIN _ _ _ => true
  | .jr _ _ | .ld _ _ _ | .st _ _ _ | .reserved6to7 _ | .ldi _ _ | .ldw _ _ _ | .reservedA _ => true
  | .movx _ _ _ _ | .reservedCtoF _ => true

/-- The constraints on the OPEN parameters: three distinct indices in 5..63 (R22), and `TRACE_REGS` a set, written as a
strictly rising list. -/
abbrev Params.Admissible (p : Params) : Prop :=
  5 ≤ p.regSp.val ∧ 5 ≤ p.regIp.val ∧ 5 ≤ p.regFl.val ∧
  p.regSp ≠ p.regIp ∧ p.regSp ≠ p.regFl ∧ p.regIp ≠ p.regFl ∧
  p.traceRegs.Pairwise (· < ·)

end Sys2Proof
end

