-- ==== Sys2Proof/Decode.lean ====
section
/-! DEFINITION. Decoding and encoding (30_encoding.md R101 to R122; the bit strings of spec/opcode_table.json). -/

namespace Sys2Proof

/-! ### The four nibbles of a word -/

/-- Bits 15:12, the top nibble. -/
def nib3 (w : Word) : BitVec 4 := w.extractLsb' 12 4
/-- Bits 11:8, the second nibble. -/
def nib2 (w : Word) : BitVec 4 := w.extractLsb' 8 4
/-- Bits 7:4. -/
def nib1 (w : Word) : BitVec 4 := w.extractLsb' 4 4
/-- Bits 3:0. -/
def nib0 (w : Word) : BitVec 4 := w.extractLsb' 0 4
/-- Bits 7:0. -/
def lowByte (w : Word) : Byte := w.extractLsb' 0 8
/-- Bits 15:8. -/
def highByte (w : Word) : Byte := w.extractLsb' 8 8
/-- The word whose high byte is `hi` and whose low byte is `lo`. -/
def wordOf (hi lo : Byte) : Word := hi ++ lo
/-- The word of four nibbles, the top one first. -/
def ofNibbles (n3 n2 n1 n0 : BitVec 4) : Word := n3 ++ n2 ++ n1 ++ n0

/-! ### Condition codes (R123, R261) -/

/-- The condition of a 4-bit cond field. -/
def condOfBits (c : BitVec 4) : Cond :=
  match c.toNat with
  | 0 => .nv | 1 => .a | 2 => .ae | 3 => .b | 4 => .be | 5 => .g | 6 => .ge | 7 => .l
  | 8 => .le | 9 => .e | 10 => .ne | 11 => .o | 12 => .no | 13 => .al | 14 => .n14 | _ => .n15

/-- The cond field of a condition. -/
def condBits : Cond → BitVec 4
  | .nv => 0 | .a => 1 | .ae => 2 | .b => 3 | .be => 4 | .g => 5 | .ge => 6 | .l => 7
  | .le => 8 | .e => 9 | .ne => 10 | .o => 11 | .no => 12 | .al => 13 | .n14 => 14 | .n15 => 15

/-! ### Decoding -/

/-- A 1-operand word by its selector, bits 7:4 (format U, R104, R117); the word is not `0x0000`. -/
def decodeUnary (w : Word) : Instr :=
  match (nib1 w).toNat with
  | 0 => .unsupSel0 (nib0 w)
  | 1 => .not (nib0 w)
  | 2 => .neg (nib0 w)
  | 3 => .push (nib0 w)
  | 4 => .pop (nib0 w)
  | 5 => .inc (nib0 w)
  | 6 => .dec (nib0 w)
  | 7 => .unsupSel7 (nib0 w)
  | _ => .unsupSel8to15 (w.extractLsb' 4 3) (nib0 w)

/-- A 2-operand register word by its ALU op, bits 11:8, which is not 0 (format R, R105, R119). -/
def decodeAluReg (w : Word) : Instr :=
  match (nib2 w).toNat with
  | 1 => .add (nib1 w) (nib0 w)
  | 2 => .sub (nib1 w) (nib0 w)
  | 3 => .or (nib1 w) (nib0 w)
  | 4 => .nor (nib1 w) (nib0 w)
  | 5 => .and (nib1 w) (nib0 w)
  | 6 => .nand (nib1 w) (nib0 w)
  | 7 => .xor (nib1 w) (nib0 w)
  | 8 => .xnor (nib1 w) (nib0 w)
  | 9 => .adc (nib1 w) (nib0 w)
  | 10 => .sbb (nib1 w) (nib0 w)
  | 11 => .cmp (nib1 w) (nib0 w)
  | _ => .aluN (w.extractLsb' 8 2) (nib1 w) (nib0 w)

/-- A conditional absolute jump by its mode, bits 3:0 (format JA, R106, R118). -/
def decodeJump (w imm : Word) : Instr :=
  match (nib0 w).toNat with
  | 0 => .jmpReg (condOfBits (nib2 w)) (nib1 w)
  | 1 => .jmpInd (condOfBits (nib2 w)) (nib1 w)
  | 2 => .jmpImm (condOfBits (nib2 w)) (nib1 w) imm
  | 3 => .unsupMode3 (condOfBits (nib2 w)) (nib1 w)
  | 4 | 5 | 6 | 7 => .unsupMode4to7 (condOfBits (nib2 w)) (nib1 w) (w.extractLsb' 0 2)
  | _ => .unsupMode8to15 (condOfBits (nib2 w)) (nib1 w) (w.extractLsb' 0 3)

/-- A 2-operand immediate word by its ALU op, bits 11:8 (format I, R107, R119). -/
def decodeAluImm (w : Word) : Instr :=
  match (nib2 w).toNat with
  | 0 => .aluI0 (nib1 w) (nib0 w)
  | 1 => .addi (nib1 w) (nib0 w)
  | 2 => .subi (nib1 w) (nib0 w)
  | 3 => .ori (nib1 w) (nib0 w)
  | 4 => .nori (nib1 w) (nib0 w)
  | 5 => .andi (nib1 w) (nib0 w)
  | 6 => .nandi (nib1 w) (nib0 w)
  | 7 => .xori (nib1 w) (nib0 w)
  | 8 => .xnori (nib1 w) (nib0 w)
  | 9 => .adci (nib1 w) (nib0 w)
  | 10 => .sbbi (nib1 w) (nib0 w)
  | 11 => .cmpi (nib1 w) (nib0 w)
  | _ => .aluIN (w.extractLsb' 8 2) (nib1 w) (nib0 w)

/-- The instruction of a first word `w`, with `imm` the word after it, used by the 4-byte forms only (R102). Total: the
reserved words are instructions too, whose meaning is the fatal failure (R116 to R118). -/
def decodeWords (w imm : Word) : Instr :=
  if w = 0#16 then .hlt else
  match (nib3 w).toNat with
  | 0 => if nib2 w = 0#4 then decodeUnary w else decodeAluReg w
  | 1 => decodeJump w imm
  | 2 => decodeAluImm w
  | 3 => .jr (condOfBits (nib2 w)) (lowByte w)
  | 4 => .ld (nib2 w) (nib1 w) (nib0 w)
  | 5 => .st (nib2 w) (nib1 w) (nib0 w)
  | 6 | 7 => .reserved6to7 (w.extractLsb' 0 13)
  | 8 => .ldi (nib2 w) (lowByte w)
  | 9 => .ldw (nib2 w) (lowByte w) imm
  | 10 => .reservedA (w.extractLsb' 0 12)
  | 11 => .movx (nib2 w) (nib1 w) (w.extractLsb' 2 2) (w.extractLsb' 0 2)
  | _ => .reservedCtoF (w.extractLsb' 0 14)

/-- Whether the first word `w` is followed by an immediate word: LDW, and JMP of mode 2 (R115). -/
def hasImmWord (w : Word) : Bool :=
  nib3 w == 9#4 || (nib3 w == 1#4 && nib0 w == 2#4)

/-- Why `decode` rejects a list of bytes: only for want of bytes, since every word is an instruction. -/
inductive DecodeReject where
  /-- Fewer than 2 bytes: no first word. -/
  | missingWord
  /-- The first word has an immediate word (R115) and fewer than 2 bytes follow. -/
  | missingImmediate
deriving DecidableEq, Repr

/-- The instruction at the head of a list of bytes, lowest address first, each word big-endian (R101), and the bytes
after it. -/
def decode : List Byte → Except DecodeReject (Instr × List Byte)
  | hi :: lo :: rest =>
    if hasImmWord (wordOf hi lo) then
      match rest with
      | hi2 :: lo2 :: rest2 => .ok (decodeWords (wordOf hi lo) (wordOf hi2 lo2), rest2)
      | _ => .error .missingImmediate
    else .ok (decodeWords (wordOf hi lo) 0, rest)
  | _ => .error .missingWord

/-! ### Encoding -/

/-- The first word of an instruction (the bit strings of the opcode table; formats R104 to R113). -/
def firstWord : Instr → Word
  | .hlt => 0
  | .not rd => ofNibbles 0 0 1 rd
  | .neg rd => ofNibbles 0 0 2 rd
  | .push rd => ofNibbles 0 0 3 rd
  | .pop rd => ofNibbles 0 0 4 rd
  | .inc rd => ofNibbles 0 0 5 rd
  | .dec rd => ofNibbles 0 0 6 rd
  | .unsupSel0 rd => ofNibbles 0 0 0 rd
  | .unsupSel7 rd => ofNibbles 0 0 7 rd
  | .unsupSel8to15 sel rd => ofNibbles 0 0 (1#1 ++ sel) rd
  | .add rd rs => ofNibbles 0 1 rd rs
  | .sub rd rs => ofNibbles 0 2 rd rs
  | .or rd rs => ofNibbles 0 3 rd rs
  | .nor rd rs => ofNibbles 0 4 rd rs
  | .and rd rs => ofNibbles 0 5 rd rs
  | .nand rd rs => ofNibbles 0 6 rd rs
  | .xor rd rs => ofNibbles 0 7 rd rs
  | .xnor rd rs => ofNibbles 0 8 rd rs
  | .adc rd rs => ofNibbles 0 9 rd rs
  | .sbb rd rs => ofNibbles 0 10 rd rs
  | .cmp rd rs => ofNibbles 0 11 rd rs
  | .aluN n rd rs => ofNibbles 0 (3#2 ++ n) rd rs
  | .jmpReg cc rd => ofNibbles 1 (condBits cc) rd 0
  | .jmpInd cc rd => ofNibbles 1 (condBits cc) rd 1
  | .jmpImm cc ign _ => ofNibbles 1 (condBits cc) ign 2
  | .unsupMode3 cc rd => ofNibbles 1 (condBits cc) rd 3
  | .unsupMode4to7 cc rd m => ofNibbles 1 (condBits cc) rd (1#2 ++ m)
  | .unsupMode8to15 cc rd m => ofNibbles 1 (condBits cc) rd (1#1 ++ m)
  | .aluI0 rd imm4 => ofNibbles 2 0 rd imm4
  | .addi rd imm4 => ofNibbles 2 1 rd imm4
  | .subi rd imm4 => ofNibbles 2 2 rd imm4
  | .ori rd imm4 => ofNibbles 2 3 rd imm4
  | .nori rd imm4 => ofNibbles 2 4 rd imm4
  | .andi rd imm4 => ofNibbles 2 5 rd imm4
  | .nandi rd imm4 => ofNibbles 2 6 rd imm4
  | .xori rd imm4 => ofNibbles 2 7 rd imm4
  | .xnori rd imm4 => ofNibbles 2 8 rd imm4
  | .adci rd imm4 => ofNibbles 2 9 rd imm4
  | .sbbi rd imm4 => ofNibbles 2 10 rd imm4
  | .cmpi rd imm4 => ofNibbles 2 11 rd imm4
  | .aluIN n rd imm4 => ofNibbles 2 (3#2 ++ n) rd imm4
  | .jr cc off8 => wordOf (3#4 ++ condBits cc) off8
  | .ld rd rs ro => ofNibbles 4 rd rs ro
  | .st rd rs ro => ofNibbles 5 rd rs ro
  | .reserved6to7 low => 3#3 ++ low
  | .ldi rd imm8 => wordOf (8#4 ++ rd) imm8
  | .ldw rd ign _ => wordOf (9#4 ++ rd) ign
  | .reservedA low => 10#4 ++ low
  | .movx rd rs bankDest bankSrc => ofNibbles 11 rd rs (bankDest ++ bankSrc)
  | .reservedCtoF low => 3#2 ++ low

/-- The immediate word of an instruction that has one (R115). -/
def immWord : Instr → Option Word
  | .jmpImm _ _ imm16 => some imm16
  | .ldw _ _ imm16 => some imm16
  | .hlt => none
  | .not _ | .neg _ | .push _ | .pop _ | .inc _ | .dec _ | .unsupSel0 _ | .unsupSel7 _ | .unsupSel8to15 _ _ => none
  | .add _ _ | .sub _ _ | .or _ _ | .nor _ _ | .and _ _ | .nand _ _ | .xor _ _ | .xnor _ _ => none
  | .adc _ _ | .sbb _ _ | .cmp _ _ | .aluN _ _ _ => none
  | .jmpReg _ _ | .jmpInd _ _ | .unsupMode3 _ _ | .unsupMode4to7 _ _ _ | .unsupMode8to15 _ _ _ => none
  | .aluI0 _ _ | .addi _ _ | .subi _ _ | .ori _ _ | .nori _ _ | .andi _ _ | .nandi _ _ | .xori _ _ => none
  | .xnori _ _ | .adci _ _ | .sbbi _ _ | .cmpi _ _ | .aluIN _ _ _ => none
  | .jr _ _ | .ld _ _ _ | .st _ _ _ | .reserved6to7 _ | .ldi _ _ | .reservedA _ => none
  | .movx _ _ _ _ | .reservedCtoF _ => none

/-- The words of an instruction. -/
def encode (i : Instr) : List Word := firstWord i :: (immWord i).toList

/-- The bytes of words as memory holds them, each word's high byte first (R62, R101). -/
def bytesOfWords : List Word → List Byte
  | [] => []
  | w :: ws => highByte w :: lowByte w :: bytesOfWords ws

/-- The length of an instruction in bytes: 4 for LDW and JMP #imm16, else 2 (R115). -/
def instrLength (i : Instr) : Nat := if (immWord i).isSome then 4 else 2

/-- The instruction the decoder reads from an instruction's bits, numbered as spec/opcode_table.json numbers them: bit 0
is the least significant bit of the first word, the second word is bits 31:16, and every bit from `nbits` on is 0. -/
def decodeTableWord (nbits w : Nat) : Option Instr :=
  let v := w % 2 ^ nbits
  match decode (bytesOfWords [BitVec.ofNat 16 v, BitVec.ofNat 16 (v / 65536)]) with
  | .ok (i, _) => some i
  | .error _ => none

end Sys2Proof
end

