-- ==== Sys2Proof/Machine/Defaults.lean ====
section
/-! DEFINITION. The parameters of the machine that `State.reset` describes. The spec leaves them OPEN (00_scope.md R7):
this is the model's own choice for its one fixed reset state. Claims hold for every admissible choice (R22). -/

namespace Sys2Proof.Machine

/-- DESIGN CHOICE (log 1, log 2; unsafe): the indices 13, 14, 15 are the ones 95_test_vectors.md V-RRM fixes "for
illustration only"; `TRACE_REGS` is the base registers that are then not reserved. -/
def resetParams : Params :=
  { regSp := 13, regIp := 14, regFl := 15, traceRegs := [0, 1, 2, 3, 4, 5, 6, 7, 8, 9, 10, 11, 12] }

end Sys2Proof.Machine
end

