-- ==== Sys2Proof/Machine/State.lean ====
section
/-! DEFINITION. The state of the block (10_state.md), the reasons a step can stop, and reset (70_reset_and_hazards.md
R400 to R404). Plain data throughout. -/

namespace Sys2Proof.Machine

/-- The causes of a fatal failure (60_exceptions.md R350, R351). -/
inductive Cause where
  /-- A reserved top nibble, an unsupported 1-operand selector, an unsupported jump mode (R353). -/
  | unsupportedInstruction
  /-- A register operand that R24, R25 or R26 forbid (R357). -/
  | reservedRegisterMisuse
deriving DecidableEq, Repr

/-- The run status (10_state.md R36). -/
inductive RunStatus where
  /-- The block executes. -/
  | running
  /-- A fatal failure has ended execution for good; it records the cause, the IP and the word fetched there (R355,
  R356). -/
  | faulted (cause : Cause) (faultIp faultWord : Word)
deriving DecidableEq, Repr

/-- The result of one step (60_exceptions.md R351). -/
inductive StepResult where
  /-- `Continue`: an instruction executed. -/
  | cont
  /-- `Halt`: the halt word was fetched. -/
  | halt
  /-- `Fault(cause)`: a fatal failure. -/
  | fault (cause : Cause)
deriving DecidableEq, Repr

/-- An output event of the block (00_scope.md R6, R13). -/
inductive Event where
  /-- `Trace(ip, word, snapshot)` (60_exceptions.md R370). -/
  | trace (ip word : Word) (snapshot : List (RegIx × Word))
  /-- `PortOut(v)` (20_memory.md R66). -/
  | portOut (v : Word)
deriving DecidableEq, Repr

/-- Memory as (address, byte) pairs in one canonical form: `Mem.wf` in Ops.lean says which (log 13). -/
abbrev Mem := List Host.Cell

/-- The whole state: the register file, memory and run status of the block (10_state.md R20, R35, R36), and the model's
own fields `params`, `result` and `events` (log 1, log 3, log 4). IP, SP and FL are the register file's entries at the
parameters' indices, as the spec has them (R11, C6). -/
structure State where
  /-- `x[0]` to `x[63]` (R20). -/
  regs : Vector Word 64
  /-- The 65,536 bytes (R60). -/
  mem : Mem
  /-- The run status (R36). -/
  status : RunStatus
  /-- The OPEN parameters; no step changes them (R7, R22, R370; log 1, log 2). -/
  params : Params
  /-- The result of the latest step, none before the first (R351, R352; log 4). -/
  result : Option StepResult
  /-- The events emitted so far, oldest first (R6; log 3). -/
  events : List Event
deriving DecidableEq, Repr

/-- Why a step stops with a fault. -/
inductive Fault where
  /-- Raised by `step` alone, when it finds the run status Faulted: the block has ended, and the step returns the
  recorded fault without fetching, tracing or changing anything (R355). Safe: the spec gives such a step no effect, and
  the instruction that failed took its own effect in the step before, as a next state (log 5). -/
  | terminal (cause : Cause) (faultIp faultWord : Word)
deriving DecidableEq, Repr

/-- Why a step is refused. -/
inductive Refusal where
  /-- An instruction without a meaning yet, raised by `exec`'s arm alone. Safe: nothing is claimed of it. No arm raises
  it: every instruction has its meaning. -/
  | notModelled (mnemonic : String)
deriving DecidableEq, Repr

/-- The reset state of the machine with the parameters `p`: registers and memory zero, status Running, no event emitted
(R400 to R402, R404). -/
def State.resetWith (p : Params) : State :=
  { regs := Vector.replicate 64 0, mem := [], status := .running, params := p, result := none, events := [] }

/-- The machine right after reset. Every register, every byte and the status hold the value the spec gives (R400 to
R402); the parameters are the model's choice (log 1, log 2). -/
def State.reset : State := State.resetWith resetParams

end Sys2Proof.Machine
end

