-- ==== Sys2Proof/Machine/Ops.lean ====
section
/-! DEFINITION. The named operations over registers and memory (00_scope.md R11 to R13), the output events, the ways a
step ends, taking a fatal failure, and reset, the one way out of it. -/

namespace Sys2Proof.Machine

/-! ### Registers (R11) -/

/-- `x[i]`: no index is hard-wired (R23). -/
def State.reg (s : State) (i : RegIx) : Word := s.regs[i]

/-- `x[i] <- v`. -/
def State.setReg (s : State) (i : RegIx) (v : Word) : State := { s with regs := s.regs.set i v }

/-- IP, `x[REG_IP]` (R27). -/
def State.ip (s : State) : Word := s.reg s.params.regIp

/-- SP, `x[REG_SP]` (R30). -/
def State.sp (s : State) : Word := s.reg s.params.regSp

/-- FL, `x[REG_FL]` (R31). -/
def State.fl (s : State) : Word := s.reg s.params.regFl

/-- `pc <- target` (R11). -/
def State.setIp (s : State) (v : Word) : State := s.setReg s.params.regIp v

/-- `sp <- v`. -/
def State.setSp (s : State) (v : Word) : State := s.setReg s.params.regSp v

/-- `fl <- f`: every bit replaced (R32). -/
def State.setFl (s : State) (v : Word) : State := s.setReg s.params.regFl v

/-! ### Memory (R60 to R71) -/

/-- What an address that the list does not hold reads as: the reset contents (R401). -/
def Mem.unlisted : Byte := 0#8

/-- `mem[a]`. -/
def Mem.read : Mem → Nat → Byte
  | [], _ => Mem.unlisted
  | (k, v) :: m, a => if k = a then v else Mem.read m a

/-- `mem[a] <- b`, keeping the canonical form: writing the value of an unlisted address removes the entry. -/
def Mem.write : Mem → Nat → Byte → Mem
  | [], a, b => if b = Mem.unlisted then [] else [(a, b)]
  | (k, v) :: m, a, b =>
    if a < k then (if b = Mem.unlisted then (k, v) :: m else (a, b) :: (k, v) :: m)
    else if a = k then (if b = Mem.unlisted then m else (a, b) :: m)
    else (k, v) :: Mem.write m a b

/-- The entries lie in `lo` to `0xFFFF`, addresses strictly rising, none equal to what an unlisted address reads as. -/
def Mem.wfFrom (lo : Nat) : Mem → Bool
  | [] => true
  | (k, v) :: m => decide (lo ≤ k) && decide (k < 65536) && decide (v ≠ Mem.unlisted) && Mem.wfFrom (k + 1) m

/-- The canonical form of memory. -/
def Mem.wf (m : Mem) : Bool := Mem.wfFrom 0 m

/-- `MemRead(a, 2)`: big-endian, the second address wraps, no effect (R63, R71). -/
def Mem.readWord (m : Mem) (a : Word) : Word := wordOf (Mem.read m a.toNat) (Mem.read m (a + 1).toNat)

/-- The storing half of `MemWrite(a, 2, v)`: high byte at `a`, low byte at `a + 1`, which wraps (R65, R71). -/
def Mem.writeWord (m : Mem) (a v : Word) : Mem :=
  Mem.write (Mem.write m a.toNat (highByte v)) (a + 1).toNat (lowByte v)

/-- `PORT_ADDR` (R7, R65). -/
def portAddr : Word := 0xFF01#16

/-- `MemRead(a, 2)` of a state (R63); reads at the port read memory (R68). -/
def State.memRead (s : State) (a : Word) : Word := Mem.readWord s.mem a

/-- `emit`: one output event, after every earlier one (R6, R66). -/
def State.emit (s : State) (e : Event) : State := { s with events := s.events ++ [e] }

/-- `MemWrite(a, 2, v)`: at exactly `PORT_ADDR` a port event and no store, elsewhere a store (R65 to R67). -/
def State.memWrite (s : State) (a v : Word) : State :=
  if a = portAddr then s.emit (.portOut v) else { s with mem := Mem.writeWord s.mem a v }

/-! ### Fetching and tracing (R64, R100, R370) -/

/-- The word the step fetches, `MemRead(ip, 2)` (R64). -/
def State.fetchWord (s : State) : Word := s.memRead s.ip

/-- The word after it, `MemRead(ip + 2, 2)` (R64). Fetching it for a 2-byte instruction too has no effect (R68; log 8). -/
def State.fetchImm (s : State) : Word := s.memRead (s.ip + 2)

/-- The four bytes from IP on, lowest address first: the longest instruction (R115). -/
def State.fetchBytes (s : State) : List Byte := bytesOfWords [s.fetchWord, s.fetchImm]

/-- The snapshot of the registers in `TRACE_REGS` (R370). -/
def State.snapshot (s : State) : List (RegIx × Word) := s.params.traceRegs.map fun i => (i, s.reg i)

/-- `emit Trace(ip, word, snapshot)`, right after the fetch and before anything executes (R100, R370). -/
def State.emitTrace (s : State) : State := s.emit (.trace s.ip s.fetchWord s.snapshot)

/-! ### How an instruction ends (R13, R100, R351) -/

/-- `ip <- ip + n; return Continue`. -/
def State.advance (s : State) (n : Word) : State := { s.setIp (s.ip + n) with result := some .cont }

/-- `return Halt`: nothing else changes (R266). -/
def State.halt (s : State) : State := { s with result := some .halt }

/-- Taking a fatal failure, `raise cause(ip, word)`: no register (IP included), byte or port is touched; the run status
records the cause, the IP and the word fetched there, and the step's result is `Fault(cause)` (R354 to R356). There is no
handler and no return from it (R362, R363): `State.hostReset` is the only way out. -/
def State.raise (s : State) (c : Cause) : State :=
  { s with status := .faulted c s.ip s.fetchWord, result := some (.fault c) }

/-- Reset as the host requests it (R400 to R402): registers, memory and status take their reset values. It emits nothing
(R404), so the record of earlier events stays, and the parameters are the block's own (log 11). -/
def State.hostReset (s : State) : State := { State.resetWith s.params with events := s.events }

end Sys2Proof.Machine
end

