-- ==== Sys2Proof/Machine/Flags.lean ====
section
/-! DEFINITION. The flags word (10_state.md R31; 41_alu.md R201, R202) and the conditions over it (42_control.md R260,
R261). -/

namespace Sys2Proof.Machine

/-- Z, bit 0 (R11, R31). -/
def flagZ (f : Word) : Bool := f.getLsbD 0
/-- C, bit 1. -/
def flagC (f : Word) : Bool := f.getLsbD 1
/-- O, bit 2. -/
def flagO (f : Word) : Bool := f.getLsbD 2
/-- S, bit 3. -/
def flagS (f : Word) : Bool := f.getLsbD 3
/-- E, the ALU-error flag, bit 6. -/
def flagE (f : Word) : Bool := f.getLsbD 6

/-- `flagword(c, cf)`: Z, C, O = ¬cf ∧ S, S; every other bit 0 (R201, R202). -/
def flagWord (c : Word) (cf : Bool) : Word :=
  (if c = 0#16 then 0x0001 else 0) ||| (if cf then 0x0002 else 0) |||
  (if !cf && c.getLsbD 15 then 0x0004 else 0) ||| (if c.getLsbD 15 then 0x0008 else 0)

/-- The flags word of an unknown ALU operation: the ALU-error bit alone (R214). -/
def aluErrorFlag : Word := 0x0040

/-- `cond(cc, fl)` (R261). Condition 8 is the source's formula as written (90_conflicts.md C3). -/
def condHolds (cc : Cond) (f : Word) : Bool :=
  match cc with
  | .nv => false
  | .a => !flagZ f && !flagC f
  | .ae => !flagC f
  | .b => flagC f
  | .be => flagC f || flagZ f
  | .g => !flagZ f && (flagS f == flagO f)
  | .ge => flagS f == flagO f
  | .l => flagS f != flagO f
  | .le => !flagZ f || (flagS f != flagZ f)
  | .e => flagZ f
  | .ne => !flagZ f
  | .o => flagO f
  | .no => !flagO f
  | .al => true
  | .n14 => false
  | .n15 => false

end Sys2Proof.Machine
end

