-- ==== Sys2Proof/Machine/Alu.lean ====
section
/-! DEFINITION. The ALU, a pure function (41_alu.md R200 to R214). -/

namespace Sys2Proof.Machine

/-- What the ALU returns: `res` and `fout` (R200). -/
structure AluOut where
  /-- The 16-bit result. -/
  res : Word
  /-- The new flags word. -/
  flags : Word
deriving DecidableEq, Repr

/-- The carry of `add16(a, b)`: the exact sum does not fit (R202). -/
def addCarry (a b : Word) : Bool := decide (65536 ≤ a.toNat + b.toNat)

/-- The borrow of `sub16(a, b)` (R202). -/
def subBorrow (a b : Word) : Bool := decide (a.toNat < b.toNat)

/-- The incoming carry bit as a word, 0 or 1 (R211). -/
def carryIn (fin : Word) : Word := if flagC fin then 1 else 0

/-- An operation whose result is the raw result `c`, with the carry `cf` (R201, R202). -/
def aluResult (c : Word) (cf : Bool) : AluOut := { res := c, flags := flagWord c cf }

/-- ADD (R203). -/
def aluAdd (a b : Word) : AluOut := aluResult (a + b) (addCarry a b)
/-- SUBTRACT (R204). -/
def aluSub (a b : Word) : AluOut := aluResult (a - b) (subBorrow a b)
/-- OR (R205). -/
def aluOr (a b : Word) : AluOut := aluResult (a ||| b) false
/-- NOR (R206). -/
def aluNor (a b : Word) : AluOut := aluResult (~~~(a ||| b)) false
/-- AND (R207). -/
def aluAnd (a b : Word) : AluOut := aluResult (a &&& b) false
/-- NAND (R208). -/
def aluNand (a b : Word) : AluOut := aluResult (~~~(a &&& b)) false
/-- XOR (R209). -/
def aluXor (a b : Word) : AluOut := aluResult (a ^^^ b) false
/-- XNOR (R210). -/
def aluXnor (a b : Word) : AluOut := aluResult (~~~(a ^^^ b)) false
/-- ADD-WITH-CARRY: the incoming carry is added first and that add's carry is dropped (R211). -/
def aluAdc (a b fin : Word) : AluOut := aluAdd (a + carryIn fin) b
/-- SUBTRACT-WITH-BORROW: the incoming carry is subtracted first and that borrow is dropped (R212). -/
def aluSbb (a b fin : Word) : AluOut := aluSub (a - carryIn fin) b
/-- COMPARE: SUBTRACT's flags, the result is `a` (R213). -/
def aluCmp (a b : Word) : AluOut := { res := a, flags := (aluSub a b).flags }
/-- Any other operation code: `(0, ALU_ERROR_FLAG)` (R214). -/
def aluUnknown : AluOut := { res := 0, flags := aluErrorFlag }

/-- `alu(op, a, b, fin)` (R200). -/
def alu (op : BitVec 4) (a b fin : Word) : AluOut :=
  match op.toNat with
  | 1 => aluAdd a b
  | 2 => aluSub a b
  | 3 => aluOr a b
  | 4 => aluNor a b
  | 5 => aluAnd a b
  | 6 => aluNand a b
  | 7 => aluXor a b
  | 8 => aluXnor a b
  | 9 => aluAdc a b fin
  | 10 => aluSbb a b fin
  | 11 => aluCmp a b
  | _ => aluUnknown

end Sys2Proof.Machine
end

