-- ==== Sys2Proof/Machine/Operands.lean ====
section
/-! DEFINITION. Operand forms: register indices from fields, extensions (30_encoding.md R112, R114), the check of
register operands that name a reserved index (10_state.md R24 to R26), and the forms the instruction classes share. -/

namespace Sys2Proof.Machine

/-- The base register a 4-bit field names (R21). -/
def regIx (f : RegField) : RegIx := ⟨f.toNat, Nat.lt_trans f.isLt (by decide)⟩

/-- The effective index of MOVX, `field + 16 × bank` (R112). -/
def bankIx (f : RegField) (bank : BitVec 2) : RegIx :=
  ⟨f.toNat + 16 * bank.toNat, by have := f.isLt; have := bank.isLt; omega⟩

/-- `zext_16` of a 4-bit immediate (R10, R107). -/
def zext4 (v : BitVec 4) : Word := v.setWidth 16
/-- `zext_16` of an 8-bit immediate (R10, R110). -/
def zext8 (v : Byte) : Word := v.setWidth 16
/-- `sext_16` of an 8-bit offset (R10, R108). -/
def sext8 (v : Byte) : Word := v.signExtend 16

/-- `i == REG_IP`. -/
def State.isIp (s : State) (i : RegIx) : Bool := decide (i = s.params.regIp)
/-- `i == REG_SP`. -/
def State.isSp (s : State) (i : RegIx) : Bool := decide (i = s.params.regSp)
/-- `i == REG_FL`. -/
def State.isFl (s : State) (i : RegIx) : Bool := decide (i = s.params.regFl)

/-- `if bad: raise ReservedRegisterMisuse(ip, word)`, else the next state `t` (R357). -/
def unlessMisuse (bad : Bool) (s t : State) : Host.Outcome State Fault Refusal :=
  if bad then .next (s.raise .reservedRegisterMisuse) else .next t

/-- The 1-operand instructions that rewrite rd in place with `f` and no flag (R150). -/
def unaryForm (f : Word → Word) (rd : RegField) (s : State) : Host.Outcome State Fault Refusal :=
  unlessMisuse (s.isIp (regIx rd)) s ((s.setReg (regIx rd) (f (s.reg (regIx rd)))).advance 2)

/-- The write-back of a 2-operand instruction: rd, then every bit of the flags, then IP (R215, R216). -/
def State.writeAlu (s : State) (rd : RegIx) (out : AluOut) : State :=
  ((s.setReg rd out.res).setFl out.flags).advance 2

/-- `REG_FORM(op)` (R215). -/
def regForm (op : BitVec 4) (rd rs : RegField) (s : State) : Host.Outcome State Fault Refusal :=
  unlessMisuse (s.isIp (regIx rd) || s.isIp (regIx rs) || s.isFl (regIx rd)) s
    (s.writeAlu (regIx rd) (alu op (s.reg (regIx rd)) (s.reg (regIx rs)) s.fl))

/-- `IMM_FORM(op)` (R216). -/
def immForm (op : BitVec 4) (rd : RegField) (imm4 : BitVec 4) (s : State) : Host.Outcome State Fault Refusal :=
  unlessMisuse (s.isIp (regIx rd) || s.isFl (regIx rd)) s
    (s.writeAlu (regIx rd) (alu op (s.reg (regIx rd)) (zext4 imm4) s.fl))

/-- The end of a conditional absolute jump of `n` bytes: IP moves past it, then to `target` if the condition holds on
the flags held before the jump (R260, R262 to R264). -/
def State.jump (s : State) (cc : Cond) (target n : Word) : State :=
  let past := s.advance n
  if condHolds cc s.fl then past.setIp target else past

/-- The address of LD, `x[rs] + x[ro]`, and of ST, `x[rd] + x[ro]`, wrapping (R300, R301). -/
def State.indexed (s : State) (base off : RegIx) : Word := s.reg base + s.reg off

end Sys2Proof.Machine
end

