-- ==== Sys2Proof/Machine/AluImmediate.lean ====
section
/-! DEFINITION. The 2-operand immediate instructions (41_alu.md R216, R229 to R240). -/

namespace Sys2Proof.Machine

/-- ALUI.0 rd, #imm4: the ALU op 0 (R240). -/
def execAluI0 (rd : RegField) (imm4 : BitVec 4) (s : State) : Host.Outcome State Fault Refusal :=
  immForm 0 rd imm4 s

/-- ADDI rd, #imm4 (R229). -/
def execAddi (rd : RegField) (imm4 : BitVec 4) (s : State) : Host.Outcome State Fault Refusal :=
  immForm 1 rd imm4 s

/-- SUBI rd, #imm4 (R230). -/
def execSubi (rd : RegField) (imm4 : BitVec 4) (s : State) : Host.Outcome State Fault Refusal :=
  immForm 2 rd imm4 s

/-- ORI rd, #imm4 (R231). -/
def execOri (rd : RegField) (imm4 : BitVec 4) (s : State) : Host.Outcome State Fault Refusal :=
  immForm 3 rd imm4 s

/-- NORI rd, #imm4 (R232). -/
def execNori (rd : RegField) (imm4 : BitVec 4) (s : State) : Host.Outcome State Fault Refusal :=
  immForm 4 rd imm4 s

/-- ANDI rd, #imm4 (R233). -/
def execAndi (rd : RegField) (imm4 : BitVec 4) (s : State) : Host.Outcome State Fault Refusal :=
  immForm 5 rd imm4 s

/-- NANDI rd, #imm4 (R234). -/
def execNandi (rd : RegField) (imm4 : BitVec 4) (s : State) : Host.Outcome State Fault Refusal :=
  immForm 6 rd imm4 s

/-- XORI rd, #imm4 (R235). -/
def execXori (rd : RegField) (imm4 : BitVec 4) (s : State) : Host.Outcome State Fault Refusal :=
  immForm 7 rd imm4 s

/-- XNORI rd, #imm4 (R236). -/
def execXnori (rd : RegField) (imm4 : BitVec 4) (s : State) : Host.Outcome State Fault Refusal :=
  immForm 8 rd imm4 s

/-- ADCI rd, #imm4 (R237). -/
def execAdci (rd : RegField) (imm4 : BitVec 4) (s : State) : Host.Outcome State Fault Refusal :=
  immForm 9 rd imm4 s

/-- SBBI rd, #imm4 (R238). -/
def execSbbi (rd : RegField) (imm4 : BitVec 4) (s : State) : Host.Outcome State Fault Refusal :=
  immForm 10 rd imm4 s

/-- CMPI rd, #imm4 (R239). -/
def execCmpi (rd : RegField) (imm4 : BitVec 4) (s : State) : Host.Outcome State Fault Refusal :=
  immForm 11 rd imm4 s

/-- ALUI.n rd, #imm4: the ALU ops 12 to 15 (R240). -/
def execAluIN (n : BitVec 2) (rd : RegField) (imm4 : BitVec 4) (s : State) : Host.Outcome State Fault Refusal :=
  immForm (3#2 ++ n) rd imm4 s

end Sys2Proof.Machine
end

