-- ==== Sys2Proof/Machine/AluRegister.lean ====
section
/-! DEFINITION. The 2-operand register instructions (41_alu.md R215, R217 to R228). -/

namespace Sys2Proof.Machine

/-- ADD rd, rs (R217). -/
def execAdd (rd rs : RegField) (s : State) : Host.Outcome State Fault Refusal :=
  regForm 1 rd rs s

/-- SUB rd, rs (R218). -/
def execSub (rd rs : RegField) (s : State) : Host.Outcome State Fault Refusal :=
  regForm 2 rd rs s

/-- OR rd, rs (R219). -/
def execOr (rd rs : RegField) (s : State) : Host.Outcome State Fault Refusal :=
  regForm 3 rd rs s

/-- NOR rd, rs (R220). -/
def execNor (rd rs : RegField) (s : State) : Host.Outcome State Fault Refusal :=
  regForm 4 rd rs s

/-- AND rd, rs (R221). -/
def execAnd (rd rs : RegField) (s : State) : Host.Outcome State Fault Refusal :=
  regForm 5 rd rs s

/-- NAND rd, rs (R222). -/
def execNand (rd rs : RegField) (s : State) : Host.Outcome State Fault Refusal :=
  regForm 6 rd rs s

/-- XOR rd, rs (R223). -/
def execXor (rd rs : RegField) (s : State) : Host.Outcome State Fault Refusal :=
  regForm 7 rd rs s

/-- XNOR rd, rs (R224). -/
def execXnor (rd rs : RegField) (s : State) : Host.Outcome State Fault Refusal :=
  regForm 8 rd rs s

/-- ADC rd, rs (R225). -/
def execAdc (rd rs : RegField) (s : State) : Host.Outcome State Fault Refusal :=
  regForm 9 rd rs s

/-- SBB rd, rs (R226). -/
def execSbb (rd rs : RegField) (s : State) : Host.Outcome State Fault Refusal :=
  regForm 10 rd rs s

/-- CMP rd, rs (R227). -/
def execCmp (rd rs : RegField) (s : State) : Host.Outcome State Fault Refusal :=
  regForm 11 rd rs s

/-- ALU.n rd, rs: the ALU ops 12 to 15 (R228). -/
def execAluN (n : BitVec 2) (rd rs : RegField) (s : State) : Host.Outcome State Fault Refusal :=
  regForm (3#2 ++ n) rd rs s

end Sys2Proof.Machine
end

