-- ==== Sys2Proof/Machine/Control.lean ====
section
/-! DEFINITION. Control transfer (42_control.md R262 to R266). -/

namespace Sys2Proof.Machine

/-- HLT: nothing changes, the result is `Halt` (R266). -/
def execHlt (s : State) : Host.Outcome State Fault Refusal :=
  .next s.halt

/-- JMP.cc rd: the target is `x[rd]` (R262). -/
def execJmpReg (cc : Cond) (rd : RegField) (s : State) : Host.Outcome State Fault Refusal :=
  unlessMisuse (s.isIp (regIx rd)) s (s.jump cc (s.reg (regIx rd)) 2)

/-- JMP.cc [rd]: the target is the word in memory at `x[rd]` (R263). -/
def execJmpInd (cc : Cond) (rd : RegField) (s : State) : Host.Outcome State Fault Refusal :=
  unlessMisuse (s.isIp (regIx rd)) s (s.jump cc (s.memRead (s.reg (regIx rd))) 2)

/-- JMP.cc #imm16: the target is the immediate word; the rd field is no operand (R264, R121). -/
def execJmpImm (cc : Cond) (imm16 : Word) (s : State) : Host.Outcome State Fault Refusal :=
  .next (s.jump cc imm16 4)

/-- JR.cc #off8: IP advances by 2, then by the signed offset if the condition holds (R265). -/
def execJr (cc : Cond) (off8 : Byte) (s : State) : Host.Outcome State Fault Refusal :=
  .next (s.jump cc (s.ip + 2 + sext8 off8) 2)

end Sys2Proof.Machine
end

