-- ==== Sys2Proof/Machine/LoadStoreMove.lean ====
section
/-! DEFINITION. Loads, stores and moves (43_load_store_move.md R300 to R304). -/

namespace Sys2Proof.Machine

/-- LD rd, [rs + ro] (R300). -/
def execLd (rd rs ro : RegField) (s : State) : Host.Outcome State Fault Refusal :=
  unlessMisuse (s.isIp (regIx rd) || s.isIp (regIx rs) || s.isIp (regIx ro)) s
    ((s.setReg (regIx rd) (s.memRead (s.indexed (regIx rs) (regIx ro)))).advance 2)

/-- ST [rd + ro], rs, port case included (R301). -/
def execSt (rd rs ro : RegField) (s : State) : Host.Outcome State Fault Refusal :=
  unlessMisuse (s.isIp (regIx rd) || s.isIp (regIx rs) || s.isIp (regIx ro)) s
    ((s.memWrite (s.indexed (regIx rd) (regIx ro)) (s.reg (regIx rs))).advance 2)

/-- LDI rd, #imm8 (R302). -/
def execLdi (rd : RegField) (imm8 : Byte) (s : State) : Host.Outcome State Fault Refusal :=
  unlessMisuse (s.isIp (regIx rd)) s ((s.setReg (regIx rd) (zext8 imm8)).advance 2)

/-- LDW rd, #imm16 (R303); the ignored byte is no operand (R121). -/
def execLdw (rd : RegField) (imm16 : Word) (s : State) : Host.Outcome State Fault Refusal :=
  unlessMisuse (s.isIp (regIx rd)) s ((s.setReg (regIx rd) imm16).advance 4)

/-- MOVX xD, xS over the effective indices (R304). -/
def execMovx (rd rs : RegField) (bankDest bankSrc : BitVec 2) (s : State) : Host.Outcome State Fault Refusal :=
  unlessMisuse (s.isIp (bankIx rd bankDest) || s.isIp (bankIx rs bankSrc)) s
    ((s.setReg (bankIx rd bankDest) (s.reg (bankIx rs bankSrc))).advance 2)

end Sys2Proof.Machine
end

