-- ==== Sys2Proof/Machine/OneOperand.lean ====
section
/-! DEFINITION. The 1-operand instructions (40_one_operand.md R150 to R156). -/

namespace Sys2Proof.Machine

/-- NOT rd: the 16-bit complement (R151). -/
def execNot (rd : RegField) (s : State) : Host.Outcome State Fault Refusal :=
  unaryForm (fun v => ~~~v) rd s

/-- NEG rd: `0 - v` modulo 2^16 (R152). -/
def execNeg (rd : RegField) (s : State) : Host.Outcome State Fault Refusal :=
  unaryForm (fun v => 0 - v) rd s

/-- PUSH rd: the value is read, SP moves down 2, then the word is written at SP, port case included (R153). -/
def execPush (rd : RegField) (s : State) : Host.Outcome State Fault Refusal :=
  unlessMisuse (s.isIp (regIx rd) || s.isSp (regIx rd)) s
    (((s.setSp (s.sp - 2)).memWrite (s.sp - 2) (s.reg (regIx rd))).advance 2)

/-- POP rd: the word at SP is read, SP moves up 2, then rd is written (R154). -/
def execPop (rd : RegField) (s : State) : Host.Outcome State Fault Refusal :=
  unlessMisuse (s.isIp (regIx rd) || s.isSp (regIx rd)) s
    (((s.setSp (s.sp + 2)).setReg (regIx rd) (s.memRead s.sp)).advance 2)

/-- INC rd, modulo 2^16 (R155). -/
def execInc (rd : RegField) (s : State) : Host.Outcome State Fault Refusal :=
  unaryForm (fun v => v + 1) rd s

/-- DEC rd, modulo 2^16 (R156). -/
def execDec (rd : RegField) (s : State) : Host.Outcome State Fault Refusal :=
  unaryForm (fun v => v - 1) rd s

end Sys2Proof.Machine
end

