-- ==== Sys2Proof/Machine/Unsupported.lean ====
section
/-! DEFINITION. The unsupported and reserved words: each takes the fatal failure UnsupportedInstruction (60_exceptions.md R353 to R356).
The failure is a next state with the run status Faulted (log 5); an unsupported instruction has no operands (R360). -/

namespace Sys2Proof.Machine

/-- Unsupported 1-operand selector 0: the fatal failure UnsupportedInstruction (R117, R353). -/
def execUnsupSel0 (s : State) : Host.Outcome State Fault Refusal :=
  .next (s.raise .unsupportedInstruction)

/-- Unsupported 1-operand selector 7: the fatal failure UnsupportedInstruction (R117, R353). -/
def execUnsupSel7 (s : State) : Host.Outcome State Fault Refusal :=
  .next (s.raise .unsupportedInstruction)

/-- Unsupported 1-operand selectors 8 to 15: the fatal failure UnsupportedInstruction (R117, R353). -/
def execUnsupSel8to15 (s : State) : Host.Outcome State Fault Refusal :=
  .next (s.raise .unsupportedInstruction)

/-- Unsupported jump mode 3, whatever the condition: the fatal failure UnsupportedInstruction (R118, R353). -/
def execUnsupMode3 (s : State) : Host.Outcome State Fault Refusal :=
  .next (s.raise .unsupportedInstruction)

/-- Unsupported jump modes 4 to 7: the fatal failure UnsupportedInstruction (R118, R353). -/
def execUnsupMode4to7 (s : State) : Host.Outcome State Fault Refusal :=
  .next (s.raise .unsupportedInstruction)

/-- Unsupported jump modes 8 to 15: the fatal failure UnsupportedInstruction (R118, R353). -/
def execUnsupMode8to15 (s : State) : Host.Outcome State Fault Refusal :=
  .next (s.raise .unsupportedInstruction)

/-- Reserved top nibbles 0110 and 0111: the fatal failure UnsupportedInstruction (R116, R353). -/
def execReserved6to7 (s : State) : Host.Outcome State Fault Refusal :=
  .next (s.raise .unsupportedInstruction)

/-- Reserved top nibble 1010: the fatal failure UnsupportedInstruction (R116, R353). -/
def execReservedA (s : State) : Host.Outcome State Fault Refusal :=
  .next (s.raise .unsupportedInstruction)

/-- Reserved top nibbles 1100 to 1111: the fatal failure UnsupportedInstruction (R116, R353). -/
def execReservedCtoF (s : State) : Host.Outcome State Fault Refusal :=
  .next (s.raise .unsupportedInstruction)

end Sys2Proof.Machine
end

