-- ==== Sys2Proof/Machine/Dispatch.lean ====
section
/-! DEFINITION. The meaning of every instruction: one arm per constructor of `Instr`. -/

namespace Sys2Proof.Machine

/-- What an instruction does (30_encoding.md R100, "execute inst by its rule"). -/
def exec (i : Instr) (s : State) : Host.Outcome State Fault Refusal :=
  match i with
  | .hlt => Sys2Proof.Machine.execHlt s
  | .not rd => Sys2Proof.Machine.execNot rd s
  | .neg rd => Sys2Proof.Machine.execNeg rd s
  | .push rd => Sys2Proof.Machine.execPush rd s
  | .pop rd => Sys2Proof.Machine.execPop rd s
  | .inc rd => Sys2Proof.Machine.execInc rd s
  | .dec rd => Sys2Proof.Machine.execDec rd s
  | .unsupSel0 _ => Sys2Proof.Machine.execUnsupSel0 s
  | .unsupSel7 _ => Sys2Proof.Machine.execUnsupSel7 s
  | .unsupSel8to15 _ _ => Sys2Proof.Machine.execUnsupSel8to15 s
  | .add rd rs => Sys2Proof.Machine.execAdd rd rs s
  | .sub rd rs => Sys2Proof.Machine.execSub rd rs s
  | .or rd rs => Sys2Proof.Machine.execOr rd rs s
  | .nor rd rs => Sys2Proof.Machine.execNor rd rs s
  | .and rd rs => Sys2Proof.Machine.execAnd rd rs s
  | .nand rd rs => Sys2Proof.Machine.execNand rd rs s
  | .xor rd rs => Sys2Proof.Machine.execXor rd rs s
  | .xnor rd rs => Sys2Proof.Machine.execXnor rd rs s
  | .adc rd rs => Sys2Proof.Machine.execAdc rd rs s
  | .sbb rd rs => Sys2Proof.Machine.execSbb rd rs s
  | .cmp rd rs => Sys2Proof.Machine.execCmp rd rs s
  | .aluN n rd rs => Sys2Proof.Machine.execAluN n rd rs s
  | .jmpReg cc rd => Sys2Proof.Machine.execJmpReg cc rd s
  | .jmpInd cc rd => Sys2Proof.Machine.execJmpInd cc rd s
  | .jmpImm cc _ imm16 => Sys2Proof.Machine.execJmpImm cc imm16 s
  | .unsupMode3 _ _ => Sys2Proof.Machine.execUnsupMode3 s
  | .unsupMode4to7 _ _ _ => Sys2Proof.Machine.execUnsupMode4to7 s
  | .unsupMode8to15 _ _ _ => Sys2Proof.Machine.execUnsupMode8to15 s
  | .aluI0 rd imm4 => Sys2Proof.Machine.execAluI0 rd imm4 s
  | .addi rd imm4 => Sys2Proof.Machine.execAddi rd imm4 s
  | .subi rd imm4 => Sys2Proof.Machine.execSubi rd imm4 s
  | .ori rd imm4 => Sys2Proof.Machine.execOri rd imm4 s
  | .nori rd imm4 => Sys2Proof.Machine.execNori rd imm4 s
  | .andi rd imm4 => Sys2Proof.Machine.execAndi rd imm4 s
  | .nandi rd imm4 => Sys2Proof.Machine.execNandi rd imm4 s
  | .xori rd imm4 => Sys2Proof.Machine.execXori rd imm4 s
  | .xnori rd imm4 => Sys2Proof.Machine.execXnori rd imm4 s
  | .adci rd imm4 => Sys2Proof.Machine.execAdci rd imm4 s
  | .sbbi rd imm4 => Sys2Proof.Machine.execSbbi rd imm4 s
  | .cmpi rd imm4 => Sys2Proof.Machine.execCmpi rd imm4 s
  | .aluIN n rd imm4 => Sys2Proof.Machine.execAluIN n rd imm4 s
  | .jr cc off8 => Sys2Proof.Machine.execJr cc off8 s
  | .ld rd rs ro => Sys2Proof.Machine.execLd rd rs ro s
  | .st rd rs ro => Sys2Proof.Machine.execSt rd rs ro s
  | .reserved6to7 _ => Sys2Proof.Machine.execReserved6to7 s
  | .ldi rd imm8 => Sys2Proof.Machine.execLdi rd imm8 s
  | .ldw rd _ imm16 => Sys2Proof.Machine.execLdw rd imm16 s
  | .reservedA _ => Sys2Proof.Machine.execReservedA s
  | .movx rd rs bankDest bankSrc => Sys2Proof.Machine.execMovx rd rs bankDest bankSrc s
  | .reservedCtoF _ => Sys2Proof.Machine.execReservedCtoF s

end Sys2Proof.Machine
end

