-- ==== Sys2Proof/Machine/Step.lean ====
section
/-! DEFINITION. One step (30_encoding.md R100), and where the host places the instruction a step is to fetch. -/

namespace Sys2Proof.Machine

/-- One step. A Faulted block returns its recorded fault and does nothing (R355). A running one fetches at IP, emits the
trace event and executes the instruction; the halt word is the instruction HLT (R100, R266). -/
def step (s : State) : Host.Outcome State Fault Refusal :=
  match s.status with
  | .faulted cause faultIp faultWord => .fault (.terminal cause faultIp faultWord)
  | .running => exec (decodeWords s.fetchWord s.fetchImm) s.emitTrace

/-- `s` with an instruction's bits stored where the step fetches, at IP, numbered as `decodeTableWord` numbers them. It
stands for the host's `load` of a program (log 7). The status is made Running, since a Faulted block fetches nothing. -/
def State.withFetchWord (s : State) (nbits w : Nat) : State :=
  let v := w % 2 ^ nbits
  { s with
    mem := Mem.writeWord (Mem.writeWord s.mem s.ip (BitVec.ofNat 16 v)) (s.ip + 2) (BitVec.ofNat 16 (v / 65536))
    status := .running }

end Sys2Proof.Machine
end

