-- ==== Sys2Proof/Laws/Bits.lean ====
section
/-! SUPPORT. Bytes, nibbles and condition codes as numbers: the facts decoding and memory rest on. -/

namespace Sys2Proof

theorem toNat_wordOf (hi lo : Byte) : (wordOf hi lo).toNat = hi.toNat * 256 + lo.toNat := by
  show (hi ++ lo : BitVec (8 + 8)).toNat = _
  rw [BitVec.toNat_append, ← Nat.shiftLeft_add_eq_or_of_lt lo.isLt, Nat.shiftLeft_eq]

theorem toNat_ofNibbles (a b c d : BitVec 4) :
    (ofNibbles a b c d).toNat = a.toNat * 4096 + b.toNat * 256 + c.toNat * 16 + d.toNat := by
  show (a ++ b ++ c ++ d : BitVec (4 + 4 + 4 + 4)).toNat = _
  simp only [BitVec.toNat_append]
  rw [← Nat.shiftLeft_add_eq_or_of_lt b.isLt, ← Nat.shiftLeft_add_eq_or_of_lt c.isLt,
    ← Nat.shiftLeft_add_eq_or_of_lt d.isLt]
  simp only [Nat.shiftLeft_eq]
  omega

theorem toNat_nib3 (w : Word) : (nib3 w).toNat = w.toNat / 4096 % 16 := by
  simp [nib3, BitVec.extractLsb'_toNat, Nat.shiftRight_eq_div_pow]
theorem toNat_nib2 (w : Word) : (nib2 w).toNat = w.toNat / 256 % 16 := by
  simp [nib2, BitVec.extractLsb'_toNat, Nat.shiftRight_eq_div_pow]
theorem toNat_nib1 (w : Word) : (nib1 w).toNat = w.toNat / 16 % 16 := by
  simp [nib1, BitVec.extractLsb'_toNat, Nat.shiftRight_eq_div_pow]
theorem toNat_nib0 (w : Word) : (nib0 w).toNat = w.toNat % 16 := by
  simp [nib0, BitVec.extractLsb'_toNat]
theorem toNat_highByte (w : Word) : (highByte w).toNat = w.toNat / 256 := by
  have := w.isLt
  simp [highByte, BitVec.extractLsb'_toNat, Nat.shiftRight_eq_div_pow]
  omega
theorem toNat_lowByte (w : Word) : (lowByte w).toNat = w.toNat % 256 := by
  simp [lowByte, BitVec.extractLsb'_toNat]

@[simp] theorem nib3_ofNibbles (a b c d : BitVec 4) : nib3 (ofNibbles a b c d) = a := by
  apply BitVec.eq_of_toNat_eq; rw [toNat_nib3, toNat_ofNibbles]; omega
@[simp] theorem nib2_ofNibbles (a b c d : BitVec 4) : nib2 (ofNibbles a b c d) = b := by
  apply BitVec.eq_of_toNat_eq; rw [toNat_nib2, toNat_ofNibbles]; omega
@[simp] theorem nib1_ofNibbles (a b c d : BitVec 4) : nib1 (ofNibbles a b c d) = c := by
  apply BitVec.eq_of_toNat_eq; rw [toNat_nib1, toNat_ofNibbles]; omega
@[simp] theorem nib0_ofNibbles (a b c d : BitVec 4) : nib0 (ofNibbles a b c d) = d := by
  apply BitVec.eq_of_toNat_eq; rw [toNat_nib0, toNat_ofNibbles]; omega

/-- A word is its four nibbles. -/
theorem ofNibbles_nibbles (w : Word) : ofNibbles (nib3 w) (nib2 w) (nib1 w) (nib0 w) = w := by
  apply BitVec.eq_of_toNat_eq
  rw [toNat_ofNibbles, toNat_nib3, toNat_nib2, toNat_nib1, toNat_nib0]
  have := w.isLt
  omega

@[simp] theorem highByte_wordOf (hi lo : Byte) : highByte (wordOf hi lo) = hi := by
  apply BitVec.eq_of_toNat_eq; rw [toNat_highByte, toNat_wordOf]; omega
@[simp] theorem lowByte_wordOf (hi lo : Byte) : lowByte (wordOf hi lo) = lo := by
  apply BitVec.eq_of_toNat_eq; rw [toNat_lowByte, toNat_wordOf]; omega

/-- A word is its two bytes. -/
@[simp] theorem wordOf_bytes (v : Word) : wordOf (highByte v) (lowByte v) = v := by
  apply BitVec.eq_of_toNat_eq; rw [toNat_wordOf, toNat_highByte, toNat_lowByte]; omega

@[simp] theorem condOfBits_condBits (cc : Cond) : condOfBits (condBits cc) = cc := by cases cc <;> rfl

@[simp] theorem condBits_condOfBits (c : BitVec 4) : condBits (condOfBits c) = c := by
  revert c; decide

/-- An instruction has one word or two, as its length says. -/
theorem length_encode (i : Instr) : 2 * (encode i).length = instrLength i := by
  unfold encode instrLength
  cases immWord i <;> rfl

end Sys2Proof
end

