-- ==== Sys2Proof/Machine/External.lean ====
section
/-! DEFINITION. The host interface of the block (00_scope.md R5; 70_reset_and_hazards.md R405 to R409), and its numeric
codes (60_exceptions.md R351). No step performs these: the host does, between steps (log 10). `State.hostReset` stands in
Ops.lean. -/

namespace Sys2Proof.Machine

/-- The result of `load` (R351). -/
inductive LoadResult where
  /-- The image was copied. -/
  | loadOk
  /-- The image is longer than memory; nothing changed (R359, R406). -/
  | outOfBounds
deriving DecidableEq, Repr

/-- The code of a step result (R351). -/
def stepResultCode : StepResult → Nat
  | .cont => 0
  | .halt => 1
  | .fault .unsupportedInstruction => 2
  | .fault .reservedRegisterMisuse => 3

/-- The code of a load result (R351). -/
def loadResultCode : LoadResult → Nat
  | .loadOk => 0
  | .outOfBounds => 1

/-- `mem[a + i] <- bytes[i]`, byte by byte, verbatim: the port intercepts no byte (R405). -/
def Mem.writeBytes : Mem → Nat → List Byte → Mem
  | m, _, [] => m
  | m, a, b :: bs => Mem.writeBytes (Mem.write m a b) (a + 1) bs

/-- `load(bytes)`: copied to address 0 onward, or refused whole when longer than memory (R405, R406). -/
def State.load (s : State) (bytes : List Byte) : LoadResult × State :=
  if bytes.length ≤ 65536 then (.loadOk, { s with mem := Mem.writeBytes s.mem 0 bytes })
  else (.outOfBounds, s)

/-- The host reads a register (R409). -/
def State.hostReadReg (s : State) (i : RegIx) : Word := s.reg i

/-- The host writes a register, IP, SP and FL included; it takes effect at the next step (R409). -/
def State.hostWriteReg (s : State) (i : RegIx) (v : Word) : State := s.setReg i v

/-- The host reads a memory byte (R409). -/
def State.hostReadByte (s : State) (a : Word) : Byte := Mem.read s.mem a.toNat

/-- `step` as the host calls it: the step result and the state after (R100, R352). `none` only where the model refuses
an instruction or a step records no result, which never happens. -/
def hostStep (s : State) : Option (StepResult × State) :=
  match step s with
  | .next t => t.result.map fun r => (r, t)
  | .fault (.terminal cause _ _) => some (.fault cause, s)
  | .refused _ => none

/-- `run()` under fuel: steps while the result is `Continue`, and returns the first other result with the state after
that step (R407). `none` when the fuel ends first (log 16). -/
def runFuel : Nat → State → Option (StepResult × State)
  | 0, _ => none
  | n + 1, s =>
    match hostStep s with
    | some (.cont, t) => runFuel n t
    | some (.halt, t) => some (.halt, t)
    | some (.fault c, t) => some (.fault c, t)
    | none => none

end Sys2Proof.Machine
end

