-- ==== Sys2Proof/Laws/State.lean ====
section
/-! SUPPORT. What each update of the state leaves and sets, field by field; cited so that no proof unfolds a record
update. -/

namespace Sys2Proof.Machine

@[simp] theorem State.setReg_mem (s : State) (i : RegIx) (v : Word) : (s.setReg i v).mem = s.mem := rfl
@[simp] theorem State.setReg_status (s : State) (i : RegIx) (v : Word) : (s.setReg i v).status = s.status := rfl
@[simp] theorem State.setReg_params (s : State) (i : RegIx) (v : Word) : (s.setReg i v).params = s.params := rfl
@[simp] theorem State.setReg_result (s : State) (i : RegIx) (v : Word) : (s.setReg i v).result = s.result := rfl
@[simp] theorem State.setReg_events (s : State) (i : RegIx) (v : Word) : (s.setReg i v).events = s.events := rfl

@[simp] theorem State.setIp_mem (s : State) (v : Word) : (s.setIp v).mem = s.mem := rfl
@[simp] theorem State.setIp_status (s : State) (v : Word) : (s.setIp v).status = s.status := rfl
@[simp] theorem State.setIp_params (s : State) (v : Word) : (s.setIp v).params = s.params := rfl
@[simp] theorem State.setIp_result (s : State) (v : Word) : (s.setIp v).result = s.result := rfl
@[simp] theorem State.setIp_events (s : State) (v : Word) : (s.setIp v).events = s.events := rfl

@[simp] theorem State.setSp_mem (s : State) (v : Word) : (s.setSp v).mem = s.mem := rfl
@[simp] theorem State.setSp_status (s : State) (v : Word) : (s.setSp v).status = s.status := rfl
@[simp] theorem State.setSp_params (s : State) (v : Word) : (s.setSp v).params = s.params := rfl
@[simp] theorem State.setSp_result (s : State) (v : Word) : (s.setSp v).result = s.result := rfl
@[simp] theorem State.setSp_events (s : State) (v : Word) : (s.setSp v).events = s.events := rfl

@[simp] theorem State.setFl_mem (s : State) (v : Word) : (s.setFl v).mem = s.mem := rfl
@[simp] theorem State.setFl_status (s : State) (v : Word) : (s.setFl v).status = s.status := rfl
@[simp] theorem State.setFl_params (s : State) (v : Word) : (s.setFl v).params = s.params := rfl
@[simp] theorem State.setFl_result (s : State) (v : Word) : (s.setFl v).result = s.result := rfl
@[simp] theorem State.setFl_events (s : State) (v : Word) : (s.setFl v).events = s.events := rfl

@[simp] theorem State.emit_regs (s : State) (e : Event) : (s.emit e).regs = s.regs := rfl
@[simp] theorem State.emit_mem (s : State) (e : Event) : (s.emit e).mem = s.mem := rfl
@[simp] theorem State.emit_status (s : State) (e : Event) : (s.emit e).status = s.status := rfl
@[simp] theorem State.emit_params (s : State) (e : Event) : (s.emit e).params = s.params := rfl
@[simp] theorem State.emit_result (s : State) (e : Event) : (s.emit e).result = s.result := rfl

@[simp] theorem State.emitTrace_regs (s : State) : (s.emitTrace).regs = s.regs := rfl
@[simp] theorem State.emitTrace_mem (s : State) : (s.emitTrace).mem = s.mem := rfl
@[simp] theorem State.emitTrace_status (s : State) : (s.emitTrace).status = s.status := rfl
@[simp] theorem State.emitTrace_params (s : State) : (s.emitTrace).params = s.params := rfl
@[simp] theorem State.emitTrace_result (s : State) : (s.emitTrace).result = s.result := rfl

@[simp] theorem State.advance_mem (s : State) (n : Word) : (s.advance n).mem = s.mem := rfl
@[simp] theorem State.advance_status (s : State) (n : Word) : (s.advance n).status = s.status := rfl
@[simp] theorem State.advance_params (s : State) (n : Word) : (s.advance n).params = s.params := rfl
@[simp] theorem State.advance_events (s : State) (n : Word) : (s.advance n).events = s.events := rfl

@[simp] theorem State.halt_regs (s : State) : (s.halt).regs = s.regs := rfl
@[simp] theorem State.halt_mem (s : State) : (s.halt).mem = s.mem := rfl
@[simp] theorem State.halt_status (s : State) : (s.halt).status = s.status := rfl
@[simp] theorem State.halt_params (s : State) : (s.halt).params = s.params := rfl
@[simp] theorem State.halt_events (s : State) : (s.halt).events = s.events := rfl

@[simp] theorem State.raise_regs (s : State) (c : Cause) : (s.raise c).regs = s.regs := rfl
@[simp] theorem State.raise_mem (s : State) (c : Cause) : (s.raise c).mem = s.mem := rfl
@[simp] theorem State.raise_params (s : State) (c : Cause) : (s.raise c).params = s.params := rfl
@[simp] theorem State.raise_events (s : State) (c : Cause) : (s.raise c).events = s.events := rfl

@[simp] theorem State.hostReset_params (s : State) : (s.hostReset).params = s.params := rfl
@[simp] theorem State.hostReset_events (s : State) : (s.hostReset).events = s.events := rfl

@[simp] theorem State.emit_events (s : State) (e : Event) : (s.emit e).events = s.events ++ [e] := rfl
@[simp] theorem State.advance_result (s : State) (n : Word) : (s.advance n).result = some .cont := rfl
@[simp] theorem State.halt_result (s : State) : s.halt.result = some .halt := rfl
@[simp] theorem State.raise_result (s : State) (c : Cause) : (s.raise c).result = some (.fault c) := rfl
@[simp] theorem State.raise_status (s : State) (c : Cause) :
    (s.raise c).status = .faulted c s.ip s.fetchWord := rfl
@[simp] theorem State.resetWith_params (p : Params) : (State.resetWith p).params = p := rfl
@[simp] theorem State.resetWith_mem (p : Params) : (State.resetWith p).mem = [] := rfl
@[simp] theorem State.resetWith_status (p : Params) : (State.resetWith p).status = .running := rfl
@[simp] theorem State.resetWith_result (p : Params) : (State.resetWith p).result = none := rfl
@[simp] theorem State.resetWith_events (p : Params) : (State.resetWith p).events = [] := rfl

/-! ### The register file -/

/-- Reading register `j` after writing register `i`. -/
theorem State.reg_setReg (s : State) (i j : RegIx) (v : Word) :
    (s.setReg i v).reg j = if j = i then v else s.reg j := by
  unfold State.reg State.setReg
  by_cases h : j = i
  · subst h; simp
  · have h2 : i.val ≠ j.val := fun e => h (Fin.ext e.symm)
    simp [h, h2]

@[simp] theorem State.reg_setReg_self (s : State) (i : RegIx) (v : Word) : (s.setReg i v).reg i = v := by
  simp [State.reg_setReg]

theorem State.reg_setReg_ne (s : State) {i j : RegIx} (v : Word) (h : j ≠ i) :
    (s.setReg i v).reg j = s.reg j := by
  simp [State.reg_setReg, h]

theorem State.reg_advance (s : State) (n : Word) (j : RegIx) :
    (s.advance n).reg j = if j = s.params.regIp then s.ip + n else s.reg j := State.reg_setReg s _ j _

theorem State.reg_setIp (s : State) (v : Word) (j : RegIx) :
    (s.setIp v).reg j = if j = s.params.regIp then v else s.reg j := State.reg_setReg s _ j _

theorem State.reg_setSp (s : State) (v : Word) (j : RegIx) :
    (s.setSp v).reg j = if j = s.params.regSp then v else s.reg j := State.reg_setReg s _ j _

theorem State.reg_setFl (s : State) (v : Word) (j : RegIx) :
    (s.setFl v).reg j = if j = s.params.regFl then v else s.reg j := State.reg_setReg s _ j _

@[simp] theorem State.reg_emit (s : State) (e : Event) (j : RegIx) : (s.emit e).reg j = s.reg j := rfl
@[simp] theorem State.reg_emitTrace (s : State) (j : RegIx) : s.emitTrace.reg j = s.reg j := rfl
@[simp] theorem State.reg_halt (s : State) (j : RegIx) : s.halt.reg j = s.reg j := rfl
@[simp] theorem State.reg_raise (s : State) (c : Cause) (j : RegIx) : (s.raise c).reg j = s.reg j := rfl

@[simp] theorem State.ip_setIp (s : State) (v : Word) : (s.setIp v).ip = v := State.reg_setReg_self s _ v
@[simp] theorem State.sp_setSp (s : State) (v : Word) : (s.setSp v).sp = v := State.reg_setReg_self s _ v
@[simp] theorem State.fl_setFl (s : State) (v : Word) : (s.setFl v).fl = v := State.reg_setReg_self s _ v
@[simp] theorem State.ip_advance (s : State) (n : Word) : (s.advance n).ip = s.ip + n := State.reg_setReg_self s _ _
@[simp] theorem State.ip_emit (s : State) (e : Event) : (s.emit e).ip = s.ip := rfl
@[simp] theorem State.sp_emit (s : State) (e : Event) : (s.emit e).sp = s.sp := rfl
@[simp] theorem State.fl_emit (s : State) (e : Event) : (s.emit e).fl = s.fl := rfl
@[simp] theorem State.ip_emitTrace (s : State) : s.emitTrace.ip = s.ip := rfl
@[simp] theorem State.sp_emitTrace (s : State) : s.emitTrace.sp = s.sp := rfl
@[simp] theorem State.fl_emitTrace (s : State) : s.emitTrace.fl = s.fl := rfl
@[simp] theorem State.ip_raise (s : State) (c : Cause) : (s.raise c).ip = s.ip := rfl
@[simp] theorem State.ip_halt (s : State) : s.halt.ip = s.ip := rfl

@[simp] theorem State.memRead_setReg (s : State) (i : RegIx) (v a : Word) :
    (s.setReg i v).memRead a = s.memRead a := rfl
@[simp] theorem State.memRead_emit (s : State) (e : Event) (a : Word) : (s.emit e).memRead a = s.memRead a := rfl
@[simp] theorem State.memRead_emitTrace (s : State) (a : Word) : s.emitTrace.memRead a = s.memRead a := rfl
@[simp] theorem State.fetchWord_emitTrace (s : State) : s.emitTrace.fetchWord = s.fetchWord := rfl
@[simp] theorem State.fetchImm_emitTrace (s : State) : s.emitTrace.fetchImm = s.fetchImm := rfl
@[simp] theorem State.fetchWord_raise (s : State) (c : Cause) : (s.raise c).fetchWord = s.fetchWord := rfl
@[simp] theorem State.fetchWord_halt (s : State) : s.halt.fetchWord = s.fetchWord := rfl

/-! ### IP, SP and FL after each register update -/

theorem State.ip_setReg (s : State) (i : RegIx) (v : Word) :
    (s.setReg i v).ip = if s.params.regIp = i then v else s.ip := State.reg_setReg s _ _ _
theorem State.ip_setSp (s : State) (v : Word) :
    (s.setSp v).ip = if s.params.regIp = s.params.regSp then v else s.ip := State.reg_setReg s _ _ _
theorem State.ip_setFl (s : State) (v : Word) :
    (s.setFl v).ip = if s.params.regIp = s.params.regFl then v else s.ip := State.reg_setReg s _ _ _
theorem State.sp_setReg (s : State) (i : RegIx) (v : Word) :
    (s.setReg i v).sp = if s.params.regSp = i then v else s.sp := State.reg_setReg s _ _ _
theorem State.sp_setIp (s : State) (v : Word) :
    (s.setIp v).sp = if s.params.regSp = s.params.regIp then v else s.sp := State.reg_setReg s _ _ _
theorem State.sp_setFl (s : State) (v : Word) :
    (s.setFl v).sp = if s.params.regSp = s.params.regFl then v else s.sp := State.reg_setReg s _ _ _
theorem State.sp_advance (s : State) (n : Word) :
    (s.advance n).sp = if s.params.regSp = s.params.regIp then s.ip + n else s.sp := State.reg_setReg s _ _ _
theorem State.fl_setReg (s : State) (i : RegIx) (v : Word) :
    (s.setReg i v).fl = if s.params.regFl = i then v else s.fl := State.reg_setReg s _ _ _
theorem State.fl_setIp (s : State) (v : Word) :
    (s.setIp v).fl = if s.params.regFl = s.params.regIp then v else s.fl := State.reg_setReg s _ _ _
theorem State.fl_setSp (s : State) (v : Word) :
    (s.setSp v).fl = if s.params.regFl = s.params.regSp then v else s.fl := State.reg_setReg s _ _ _
theorem State.fl_advance (s : State) (n : Word) :
    (s.advance n).fl = if s.params.regFl = s.params.regIp then s.ip + n else s.fl := State.reg_setReg s _ _ _

/-! ### The 16-bit write path -/

/-- At the port address: one event and nothing else. -/
theorem State.memWrite_port (s : State) (v : Word) : s.memWrite portAddr v = s.emit (.portOut v) := by
  simp [State.memWrite]

/-- Elsewhere: memory and nothing else. -/
theorem State.memWrite_store (s : State) (a v : Word) (h : a ≠ portAddr) :
    s.memWrite a v = { s with mem := Mem.writeWord s.mem a v } := by
  simp [State.memWrite, h]

@[simp] theorem State.memWrite_regs (s : State) (a v : Word) : (s.memWrite a v).regs = s.regs := by
  unfold State.memWrite; split <;> rfl
@[simp] theorem State.memWrite_status (s : State) (a v : Word) : (s.memWrite a v).status = s.status := by
  unfold State.memWrite; split <;> rfl
@[simp] theorem State.memWrite_params (s : State) (a v : Word) : (s.memWrite a v).params = s.params := by
  unfold State.memWrite; split <;> rfl
@[simp] theorem State.memWrite_result (s : State) (a v : Word) : (s.memWrite a v).result = s.result := by
  unfold State.memWrite; split <;> rfl
@[simp] theorem State.reg_memWrite (s : State) (a v : Word) (j : RegIx) : (s.memWrite a v).reg j = s.reg j := by
  unfold State.memWrite; split <;> rfl
@[simp] theorem State.ip_memWrite (s : State) (a v : Word) : (s.memWrite a v).ip = s.ip := by
  unfold State.memWrite; split <;> rfl
@[simp] theorem State.sp_memWrite (s : State) (a v : Word) : (s.memWrite a v).sp = s.sp := by
  unfold State.memWrite; split <;> rfl
@[simp] theorem State.fl_memWrite (s : State) (a v : Word) : (s.memWrite a v).fl = s.fl := by
  unfold State.memWrite; split <;> rfl

end Sys2Proof.Machine
end

