-- ==== Sys2Proof/Laws/Memory.lean ====
section
/-! SUPPORT. Memory: what a read gives after a write, and that every operation over memory keeps the canonical form. -/

namespace Sys2Proof.Machine

/-- A write leaves every other address alone, whatever the form of the list. -/
theorem Mem.read_write_ne (m : Mem) {a c : Nat} (b : Byte) (h : c ≠ a) :
    Mem.read (Mem.write m a b) c = Mem.read m c := by
  induction m with
  | nil => unfold Mem.write; split <;> simp [Mem.read, h.symm]
  | cons e m ih =>
    obtain ⟨k, v⟩ := e
    unfold Mem.write
    split_ifs with h1 h2 h3 h4
    · rfl
    · simp [Mem.read, h.symm]
    · subst h3; simp [Mem.read, h.symm]
    · subst h3; simp [Mem.read, h.symm]
    · simp only [Mem.read, ih]

/-- Below the first address of a canonical list nothing is listed. -/
theorem Mem.read_below {m : Mem} {lo a : Nat} (hm : Mem.wfFrom lo m = true) (h : a < lo) :
    Mem.read m a = Mem.unlisted := by
  induction m generalizing lo with
  | nil => rfl
  | cons e m ih =>
    obtain ⟨k, v⟩ := e
    simp only [Mem.wfFrom, Bool.and_eq_true, decide_eq_true_eq] at hm
    have : k ≠ a := by omega
    simp only [Mem.read, this, if_false]
    exact ih hm.2 (by omega)

/-- A read of the address just written gives the byte written. -/
theorem Mem.read_write_self {m : Mem} {lo a : Nat} (b : Byte) (hm : Mem.wfFrom lo m = true) :
    Mem.read (Mem.write m a b) a = b := by
  induction m generalizing lo with
  | nil => unfold Mem.write; split <;> simp_all [Mem.read]
  | cons e m ih =>
    obtain ⟨k, v⟩ := e
    simp only [Mem.wfFrom, Bool.and_eq_true, decide_eq_true_eq] at hm
    unfold Mem.write
    split_ifs with h1 h2 h3 h4
    · have : k ≠ a := by omega
      simp only [Mem.read, this, if_false]
      rw [Mem.read_below hm.2 (by omega), h2]
    · simp [Mem.read]
    · subst h3; rw [Mem.read_below hm.2 (by omega), h4]
    · simp [Mem.read]
    · have : k ≠ a := fun e => h3 e.symm
      simp only [Mem.read, this, if_false]
      exact ih hm.2

/-- A canonical list is canonical from any lower bound. -/
theorem Mem.wfFrom_mono {m : Mem} {lo lo' : Nat} (hm : Mem.wfFrom lo m = true) (h : lo' ≤ lo) :
    Mem.wfFrom lo' m = true := by
  cases m with
  | nil => rfl
  | cons e m =>
    simp only [Mem.wfFrom, Bool.and_eq_true, decide_eq_true_eq] at hm ⊢
    exact ⟨⟨⟨by omega, hm.1.1.2⟩, hm.1.2⟩, hm.2⟩

theorem Mem.wfFrom_write {m : Mem} {lo a : Nat} (b : Byte) (hm : Mem.wfFrom lo m = true) (hlo : lo ≤ a)
    (ha : a < 65536) : Mem.wfFrom lo (Mem.write m a b) = true := by
  induction m generalizing lo with
  | nil => unfold Mem.write; split <;> simp_all [Mem.wfFrom]
  | cons e m ih =>
    obtain ⟨k, v⟩ := e
    have hm' := hm
    simp only [Mem.wfFrom, Bool.and_eq_true, decide_eq_true_eq] at hm
    unfold Mem.write
    split_ifs with h1 h2 h3 h4
    · exact hm'
    · simp only [Mem.wfFrom, Bool.and_eq_true, decide_eq_true_eq]
      exact ⟨⟨⟨hlo, ha⟩, h2⟩, ⟨⟨by omega, hm.1.1.2⟩, hm.1.2⟩, hm.2⟩
    · exact Mem.wfFrom_mono hm.2 (by omega)
    · subst h3
      simp only [Mem.wfFrom, Bool.and_eq_true, decide_eq_true_eq]
      exact ⟨⟨⟨hlo, ha⟩, h4⟩, hm.2⟩
    · simp only [Mem.wfFrom, Bool.and_eq_true, decide_eq_true_eq]
      exact ⟨hm.1, ih hm.2 (by omega)⟩

/-- A byte write keeps the canonical form. -/
theorem Mem.wf_write {m : Mem} {a : Nat} (b : Byte) (hm : Mem.wf m = true) (ha : a < 65536) :
    Mem.wf (Mem.write m a b) = true := Mem.wfFrom_write b hm (Nat.zero_le a) ha

/-- A word write keeps the canonical form. -/
theorem Mem.wf_writeWord {m : Mem} (a v : Word) (hm : Mem.wf m = true) : Mem.wf (Mem.writeWord m a v) = true :=
  Mem.wf_write _ (Mem.wf_write _ hm a.isLt) (a + 1).isLt

/-- The host's copy of an image that fits keeps the canonical form. -/
theorem Mem.wf_writeBytes {m : Mem} {a : Nat} (bs : List Byte) (hm : Mem.wf m = true)
    (h : a + bs.length ≤ 65536) : Mem.wf (Mem.writeBytes m a bs) = true := by
  induction bs generalizing m a with
  | nil => exact hm
  | cons b bs ih =>
    simp only [List.length_cons] at h
    exact ih (Mem.wf_write b hm (by omega)) (by omega)

/-- The 16-bit write path keeps the canonical form. -/
theorem State.memWrite_wf (s : State) (a v : Word) (hm : Mem.wf s.mem = true) :
    Mem.wf (s.memWrite a v).mem = true := by
  unfold State.memWrite
  split
  · exact hm
  · exact Mem.wf_writeWord a v hm

/-- The reset memory is canonical. -/
theorem Mem.wf_resetWith (p : Params) : Mem.wf (State.resetWith p).mem = true := rfl

/-- The addresses of the two bytes of a word differ. -/
theorem toNat_add_one_ne (a : Word) : (a + 1).toNat ≠ a.toNat := by
  intro h
  have h1 : a + 1 = a := BitVec.eq_of_toNat_eq h
  simp at h1

/-- What one word write does: the two bytes hold the word, every other byte is as before. -/
theorem Mem.writeWord_spec {m : Mem} (a v : Word) (hm : Mem.wf m = true) :
    Mem.read (Mem.writeWord m a v) a.toNat = highByte v ∧
    Mem.read (Mem.writeWord m a v) (a + 1).toNat = lowByte v ∧
    ∀ b : Nat, b ≠ a.toNat → b ≠ (a + 1).toNat → Mem.read (Mem.writeWord m a v) b = Mem.read m b := by
  refine ⟨?_, ?_, fun b h1 h2 => ?_⟩
  · unfold Mem.writeWord
    rw [Mem.read_write_ne _ _ (toNat_add_one_ne a).symm]
    exact Mem.read_write_self _ hm
  · exact Mem.read_write_self (lo := 0) _ (Mem.wf_write _ hm a.isLt)
  · unfold Mem.writeWord
    rw [Mem.read_write_ne _ _ h2, Mem.read_write_ne _ _ h1]

/-- A word just written reads back. -/
theorem Mem.readWord_writeWord {m : Mem} (a v : Word) (hm : Mem.wf m = true) :
    Mem.readWord (Mem.writeWord m a v) a = v := by
  obtain ⟨h1, h2, _⟩ := Mem.writeWord_spec a v hm
  rw [Mem.readWord, h1, h2, wordOf_bytes]

end Sys2Proof.Machine
end

