-- ==== Sys2Proof/Safety.lean ====
section
/-! DEFINITION. The terms claims use: which words and operands the spec lets fail, the invariant of the machine, what
counts as a safe run, and what an instruction changes and leaves alone. -/

namespace Sys2Proof.Machine

/-! ### Which instructions fail (60_exceptions.md R353, R357, R360) -/

/-- The words that raise UnsupportedInstruction, exactly (R353), by the nibbles of the word. -/
def unsupportedWord (w : Word) : Bool :=
  let top := (nib3 w).toNat
  let selector := (nib1 w).toNat
  let mode := (nib0 w).toNat
  (top == 6 || top == 7 || top == 10 || decide (12 ≤ top)) ||
  (highByte w == 0#8 && w != 0#16 && (selector == 0 || decide (7 ≤ selector))) ||
  (top == 1 && decide (3 ≤ mode))

/-- The register operands of an instruction: the indices it reads or writes through a register field (10_state.md,
section 2). Ignored fields and the fields of unsupported words are none. -/
def instrOperands : Instr → List RegIx
  | .hlt => []
  | .not rd | .neg rd | .push rd | .pop rd | .inc rd | .dec rd => [regIx rd]
  | .unsupSel0 _ | .unsupSel7 _ | .unsupSel8to15 _ _ => []
  | .add rd rs | .sub rd rs | .or rd rs | .nor rd rs | .and rd rs | .nand rd rs | .xor rd rs | .xnor rd rs
  | .adc rd rs | .sbb rd rs | .cmp rd rs | .aluN _ rd rs => [regIx rd, regIx rs]
  | .jmpReg _ rd | .jmpInd _ rd => [regIx rd]
  | .jmpImm _ _ _ | .unsupMode3 _ _ | .unsupMode4to7 _ _ _ | .unsupMode8to15 _ _ _ => []
  | .aluI0 rd _ | .addi rd _ | .subi rd _ | .ori rd _ | .nori rd _ | .andi rd _ | .nandi rd _ | .xori rd _
  | .xnori rd _ | .adci rd _ | .sbbi rd _ | .cmpi rd _ | .aluIN _ rd _ => [regIx rd]
  | .jr _ _ => []
  | .ld rd rs ro | .st rd rs ro => [regIx rd, regIx rs, regIx ro]
  | .reserved6to7 _ | .reservedA _ | .reservedCtoF _ => []
  | .ldi rd _ | .ldw rd _ _ => [regIx rd]
  | .movx rd rs bankDest bankSrc => [bankIx rd bankDest, bankIx rs bankSrc]

/-- The register a PUSH or POP names. -/
def stackOperand : Instr → Option RegIx
  | .push rd | .pop rd => some (regIx rd)
  | .hlt | .not _ | .neg _ | .inc _ | .dec _ | .unsupSel0 _ | .unsupSel7 _ | .unsupSel8to15 _ _ => none
  | .add _ _ | .sub _ _ | .or _ _ | .nor _ _ | .and _ _ | .nand _ _ | .xor _ _ | .xnor _ _ => none
  | .adc _ _ | .sbb _ _ | .cmp _ _ | .aluN _ _ _ => none
  | .jmpReg _ _ | .jmpInd _ _ | .jmpImm _ _ _ | .unsupMode3 _ _ | .unsupMode4to7 _ _ _ => none
  | .unsupMode8to15 _ _ _ => none
  | .aluI0 _ _ | .addi _ _ | .subi _ _ | .ori _ _ | .nori _ _ | .andi _ _ | .nandi _ _ | .xori _ _ => none
  | .xnori _ _ | .adci _ _ | .sbbi _ _ | .cmpi _ _ | .aluIN _ _ _ => none
  | .jr _ _ | .ld _ _ _ | .st _ _ _ | .reserved6to7 _ | .ldi _ _ | .ldw _ _ _ | .reservedA _ => none
  | .movx _ _ _ _ | .reservedCtoF _ => none

/-- The destination rd of a 2-operand instruction, either form, any ALU op. -/
def aluDest : Instr → Option RegIx
  | .add rd _ | .sub rd _ | .or rd _ | .nor rd _ | .and rd _ | .nand rd _ | .xor rd _ | .xnor rd _
  | .adc rd _ | .sbb rd _ | .cmp rd _ | .aluN _ rd _ => some (regIx rd)
  | .aluI0 rd _ | .addi rd _ | .subi rd _ | .ori rd _ | .nori rd _ | .andi rd _ | .nandi rd _ | .xori rd _
  | .xnori rd _ | .adci rd _ | .sbbi rd _ | .cmpi rd _ | .aluIN _ rd _ => some (regIx rd)
  | .hlt | .not _ | .neg _ | .push _ | .pop _ | .inc _ | .dec _ | .unsupSel0 _ | .unsupSel7 _ => none
  | .unsupSel8to15 _ _ | .jmpReg _ _ | .jmpInd _ _ | .jmpImm _ _ _ | .unsupMode3 _ _ => none
  | .unsupMode4to7 _ _ _ | .unsupMode8to15 _ _ _ => none
  | .jr _ _ | .ld _ _ _ | .st _ _ _ | .reserved6to7 _ | .ldi _ _ | .ldw _ _ _ | .reservedA _ => none
  | .movx _ _ _ _ | .reservedCtoF _ => none

/-- The register a non-ALU instruction writes through a register field. -/
def moveDest : Instr → Option RegIx
  | .not rd | .neg rd | .pop rd | .inc rd | .dec rd => some (regIx rd)
  | .ld rd _ _ => some (regIx rd)
  | .ldi rd _ => some (regIx rd)
  | .ldw rd _ _ => some (regIx rd)
  | .movx rd _ bankDest _ => some (bankIx rd bankDest)
  | .hlt | .push _ | .unsupSel0 _ | .unsupSel7 _ | .unsupSel8to15 _ _ => none
  | .add _ _ | .sub _ _ | .or _ _ | .nor _ _ | .and _ _ | .nand _ _ | .xor _ _ | .xnor _ _ => none
  | .adc _ _ | .sbb _ _ | .cmp _ _ | .aluN _ _ _ => none
  | .jmpReg _ _ | .jmpInd _ _ | .jmpImm _ _ _ | .unsupMode3 _ _ | .unsupMode4to7 _ _ _ => none
  | .unsupMode8to15 _ _ _ => none
  | .aluI0 _ _ | .addi _ _ | .subi _ _ | .ori _ _ | .nori _ _ | .andi _ _ | .nandi _ _ | .xori _ _ => none
  | .xnori _ _ | .adci _ _ | .sbbi _ _ | .cmpi _ _ | .aluIN _ _ _ => none
  | .jr _ _ | .st _ _ _ | .reserved6to7 _ | .reservedA _ | .reservedCtoF _ => none

/-- The rows whose meaning is the fatal failure UnsupportedInstruction (30_encoding.md R116 to R118). -/
def unsupportedRow : Instr → Bool
  | .unsupSel0 _ | .unsupSel7 _ | .unsupSel8to15 _ _ => true
  | .unsupMode3 _ _ | .unsupMode4to7 _ _ _ | .unsupMode8to15 _ _ _ => true
  | .reserved6to7 _ | .reservedA _ | .reservedCtoF _ => true
  | .hlt | .not _ | .neg _ | .push _ | .pop _ | .inc _ | .dec _ => false
  | .add _ _ | .sub _ _ | .or _ _ | .nor _ _ | .and _ _ | .nand _ _ | .xor _ _ | .xnor _ _ => false
  | .adc _ _ | .sbb _ _ | .cmp _ _ | .aluN _ _ _ => false
  | .jmpReg _ _ | .jmpInd _ _ | .jmpImm _ _ _ => false
  | .aluI0 _ _ | .addi _ _ | .subi _ _ | .ori _ _ | .nori _ _ | .andi _ _ | .nandi _ _ | .xori _ _ => false
  | .xnori _ _ | .adci _ _ | .sbbi _ _ | .cmpi _ _ | .aluIN _ _ _ => false
  | .jr _ _ | .ld _ _ _ | .st _ _ _ | .ldi _ _ | .ldw _ _ _ | .movx _ _ _ _ => false

/-- Whether an instruction's register operands break R24, R25 or R26 (R357). -/
def instrMisuse (p : Params) (i : Instr) : Bool :=
  (instrOperands i).contains p.regIp || stackOperand i == some p.regSp || aluDest i == some p.regFl

/-- The fatal failure a running block meets at its next step, by the priority of R360: the halt word is none, then an
unsupported word, then a forbidden operand. -/
def State.nextFailure (s : State) : Option Cause :=
  if unsupportedWord s.fetchWord then some .unsupportedInstruction
  else if instrMisuse s.params (decodeWords s.fetchWord s.fetchImm) then some .reservedRegisterMisuse
  else none

/-! ### The invariant and safe runs -/

/-- The run status and the latest result agree with the machine (R36, R355, R356): a Faulted block records the cause,
IP and word of the failure it stands at, and a Running block's latest result is no fault. -/
def State.statusOk (s : State) : Bool :=
  match s.status with
  | .running =>
    match s.result with
    | some (.fault _) => false
    | some .cont | some .halt | none => true
  | .faulted cause faultIp faultWord =>
    s.result == some (.fault cause) && faultIp == s.ip && faultWord == s.fetchWord && s.nextFailure == some cause

/-- What every step keeps: memory is canonical, the parameters are admissible, the status agrees with the machine. -/
def State.inv (s : State) : Bool := Mem.wf s.mem && decide s.params.Admissible && s.statusOk

/-- A run is safe when, within `n` steps, it reaches the halt word without a fatal failure (R407; D20 has claims treat
every fault as a failed run). -/
def State.haltsWithin (s : State) (n : Nat) : Prop := ∃ t, runFuel n s = some (.halt, t)

/-- The state after `k` steps each of which returns `Continue`. -/
def continueFor : Nat → State → Option State
  | 0, s => some s
  | k + 1, s =>
    match hostStep s with
    | some (.cont, t) => continueFor k t
    | some (.halt, _) | some (.fault _, _) | none => none

/-! ### What an instruction changes and leaves alone -/

/-- Every byte of memory reads as before. -/
def SameMemory (s t : State) : Prop := ∀ a : Nat, Mem.read t.mem a = Mem.read s.mem a

/-- Every register but those listed is unchanged. -/
def SameRegsBut (js : List RegIx) (s t : State) : Prop := ∀ j, j ∉ js → t.reg j = s.reg j

/-- An instruction that executes leaves the status and the parameters alone and its result is `Continue`. -/
def Continues (s t : State) : Prop := t.status = s.status ∧ t.params = s.params ∧ t.result = some .cont

/-- The instruction writes `v` to register `d`, moves IP to `ip`, and changes nothing else; the flags register is a
register like any other here, so it is unchanged unless it is `d`. -/
def WritesReg (s t : State) (d : RegIx) (v ip : Word) : Prop :=
  t.reg d = v ∧ t.ip = ip ∧ SameRegsBut [d, s.params.regIp] s t ∧ SameMemory s t ∧ t.events = s.events ∧ Continues s t

/-- The instruction writes `v` to register `d`, replaces the whole flags word by `f`, advances IP by 2, and changes
nothing else. -/
def WritesAlu (s t : State) (d : RegIx) (v f : Word) : Prop :=
  t.reg d = v ∧ t.fl = f ∧ t.ip = s.ip + 2 ∧ SameRegsBut [d, s.params.regFl, s.params.regIp] s t ∧
  SameMemory s t ∧ t.events = s.events ∧ Continues s t

/-- The instruction moves IP to `ip` and changes nothing else. -/
def MovesIp (s t : State) (ip : Word) : Prop :=
  t.ip = ip ∧ SameRegsBut [s.params.regIp] s t ∧ SameMemory s t ∧ t.events = s.events ∧ Continues s t

/-- The 16-bit write path at `a` with `v`: at the port address one port event and no byte changed; elsewhere the two
bytes at `a` and `a + 1` hold `v`, high byte first, every other byte reads as before, and there is no event (R65). -/
def StoresWord (s t : State) (a v : Word) : Prop :=
  if a = 0xFF01#16 then SameMemory s t ∧ t.events = s.events ++ [.portOut v]
  else Mem.read t.mem a.toNat = v.extractLsb' 8 8 ∧ Mem.read t.mem (a + 1).toNat = v.extractLsb' 0 8 ∧
    (∀ b : Nat, b ≠ a.toNat → b ≠ (a + 1).toNat → Mem.read t.mem b = Mem.read s.mem b) ∧ t.events = s.events

/-- The instruction raises ReservedRegisterMisuse and has no other effect (R354, R357). -/
def RaisesMisuse (i : Instr) (s : State) : Prop := exec i s = .next (s.raise .reservedRegisterMisuse)

/-- What the 2-operand register instruction of ALU op `op` is and does. Its word is `0000 op rd rs`. For every register
field, state and admissible choice of reserved indices: where its operands are allowed it completes with result
`res a b fl` and flags `flags a b fl`, and otherwise it raises ReservedRegisterMisuse (R215). -/
def RegFormRule (op : BitVec 4) (mk : RegField → RegField → Instr) (res flags : Word → Word → Word → Word) : Prop :=
  (∀ rd rs imm, decodeWords (ofNibbles 0 op rd rs) imm = mk rd rs) ∧
  ∀ rd rs s, s.params.Admissible →
    if regIx rd = s.params.regIp ∨ regIx rs = s.params.regIp ∨ regIx rd = s.params.regFl then
      RaisesMisuse (mk rd rs) s
    else ∃ t, exec (mk rd rs) s = .next t ∧
      WritesAlu s t (regIx rd) (res (s.reg (regIx rd)) (s.reg (regIx rs)) s.fl)
        (flags (s.reg (regIx rd)) (s.reg (regIx rs)) s.fl)

/-- What the 2-operand immediate instruction of ALU op `op` is, `0010 op rd imm4`, and does, likewise (R216). -/
def ImmFormRule (op : BitVec 4) (mk : RegField → BitVec 4 → Instr) (res flags : Word → Word → Word → Word) : Prop :=
  (∀ rd imm4 imm, decodeWords (ofNibbles 2 op rd imm4) imm = mk rd imm4) ∧
  ∀ rd imm4 s, s.params.Admissible →
    if regIx rd = s.params.regIp ∨ regIx rd = s.params.regFl then RaisesMisuse (mk rd imm4) s
    else ∃ t, exec (mk rd imm4) s = .next t ∧
      WritesAlu s t (regIx rd) (res (s.reg (regIx rd)) (imm4.setWidth 16) s.fl)
        (flags (s.reg (regIx rd)) (imm4.setWidth 16) s.fl)

/-- What the 1-operand instruction of selector `sel` that rewrites rd in place is, `0000 0000 sel rd`, and does (R150). -/
def UnaryRule (sel : BitVec 4) (mk : RegField → Instr) (res : Word → Word) : Prop :=
  (∀ rd imm, decodeWords (ofNibbles 0 0 sel rd) imm = mk rd) ∧
  ∀ rd s, s.params.Admissible →
    if regIx rd = s.params.regIp then RaisesMisuse (mk rd) s
    else ∃ t, exec (mk rd) s = .next t ∧ WritesReg s t (regIx rd) (res (s.reg (regIx rd))) (s.ip + 2)

/-- The state with the trace parameter, the event record and nothing else erased. -/
def State.eraseTrace (s : State) : State :=
  { s with params := { s.params with traceRegs := [] }, events := [] }

end Sys2Proof.Machine
end

