-- ==== Sys2Proof/Laws/Ops.lean ====
section
/-! SUPPORT. One lemma for each shared operation: everything it can do. -/

namespace Sys2Proof.Machine

/-- Where the operands are allowed, the next state is the one given. -/
theorem unlessMisuse_allowed {bad : Bool} (s t : State) (h : bad = false) : unlessMisuse bad s t = .next t := by
  simp [unlessMisuse, h]

/-- Where they are not, ReservedRegisterMisuse is taken. -/
theorem unlessMisuse_bad {bad : Bool} (s t : State) (h : bad = true) :
    unlessMisuse bad s t = .next (s.raise .reservedRegisterMisuse) := by
  simp [unlessMisuse, h]

/-- If `unlessMisuse` answers `u`, it is the failure or the next state given, and nothing else. -/
theorem unlessMisuse_next {bad : Bool} {s t u : State} (h : unlessMisuse bad s t = .next u) :
    (bad = true ∧ u = s.raise .reservedRegisterMisuse) ∨ (bad = false ∧ u = t) := by
  unfold unlessMisuse at h
  split at h
  · next hb => exact .inl ⟨hb, by cases h; rfl⟩
  · next hb => exact .inr ⟨by simpa using hb, by cases h; rfl⟩

/-- What a jump does to each register: IP takes the target or the next instruction's address, nothing else moves. -/
theorem State.reg_jump (s : State) (cc : Cond) (target n : Word) (j : RegIx) :
    (s.jump cc target n).reg j =
      if j = s.params.regIp then (if condHolds cc s.fl then target else s.ip + n) else s.reg j := by
  unfold State.jump
  by_cases hc : condHolds cc s.fl <;> by_cases hj : j = s.params.regIp <;>
    simp [hc, hj, State.reg_setIp, State.reg_advance]

@[simp] theorem State.jump_ip (s : State) (cc : Cond) (target n : Word) :
    (s.jump cc target n).ip = if condHolds cc s.fl then target else s.ip + n := by
  unfold State.jump; split <;> simp_all
@[simp] theorem State.jump_mem (s : State) (cc : Cond) (target n : Word) : (s.jump cc target n).mem = s.mem := by
  unfold State.jump; split <;> simp
@[simp] theorem State.jump_status (s : State) (cc : Cond) (target n : Word) :
    (s.jump cc target n).status = s.status := by
  unfold State.jump; split <;> simp
@[simp] theorem State.jump_params (s : State) (cc : Cond) (target n : Word) :
    (s.jump cc target n).params = s.params := by
  unfold State.jump; split <;> simp
@[simp] theorem State.jump_events (s : State) (cc : Cond) (target n : Word) :
    (s.jump cc target n).events = s.events := by
  unfold State.jump; split <;> simp
@[simp] theorem State.jump_result (s : State) (cc : Cond) (target n : Word) :
    (s.jump cc target n).result = some .cont := by
  unfold State.jump; split <;> simp

/-- What the write-back of a 2-operand instruction does to each register. -/
theorem State.reg_writeAlu (s : State) (d : RegIx) (out : AluOut) (j : RegIx) :
    (s.writeAlu d out).reg j =
      if j = s.params.regIp then ((s.setReg d out.res).setFl out.flags).ip + 2
      else if j = s.params.regFl then out.flags else if j = d then out.res else s.reg j := by
  simp [State.writeAlu, State.reg_advance, State.reg_setFl, State.reg_setReg]

@[simp] theorem State.writeAlu_mem (s : State) (d : RegIx) (out : AluOut) : (s.writeAlu d out).mem = s.mem := rfl
@[simp] theorem State.writeAlu_status (s : State) (d : RegIx) (out : AluOut) :
    (s.writeAlu d out).status = s.status := rfl
@[simp] theorem State.writeAlu_params (s : State) (d : RegIx) (out : AluOut) :
    (s.writeAlu d out).params = s.params := rfl
@[simp] theorem State.writeAlu_events (s : State) (d : RegIx) (out : AluOut) :
    (s.writeAlu d out).events = s.events := rfl
@[simp] theorem State.writeAlu_result (s : State) (d : RegIx) (out : AluOut) :
    (s.writeAlu d out).result = some .cont := rfl

/-- The write path, seen from outside: a port event or two stored bytes. -/
theorem State.memWrite_storesWord (s : State) (a v : Word) (hm : Mem.wf s.mem = true) :
    StoresWord s (s.memWrite a v) a v := by
  unfold StoresWord
  by_cases h : a = portAddr
  · subst h
    rw [if_pos (by rfl), State.memWrite_port]
    exact ⟨fun _ => rfl, rfl⟩
  · rw [if_neg (show ¬a = 0xFF01#16 from h), State.memWrite_store s a v h]
    obtain ⟨h1, h2, h3⟩ := Mem.writeWord_spec a v hm
    exact ⟨h1, h2, h3, rfl⟩

end Sys2Proof.Machine
end

