-- ==== Sys2Proof/Laws/PerInstr.lean ====
section
/-! SUPPORT. Families of facts stated per instruction: one lemma per constructor of `Instr`. -/

namespace Sys2Proof.Laws.EncodedLength

/-- The encoding has as many bytes as the instruction's length (R115). -/
def Statement (i : Instr) : Prop := (bytesOfWords (encode i)).length = instrLength i

theorem hlt : Statement .hlt := rfl
theorem not (rd : RegField) : Statement (.not rd) := rfl
theorem neg (rd : RegField) : Statement (.neg rd) := rfl
theorem push (rd : RegField) : Statement (.push rd) := rfl
theorem pop (rd : RegField) : Statement (.pop rd) := rfl
theorem inc (rd : RegField) : Statement (.inc rd) := rfl
theorem dec (rd : RegField) : Statement (.dec rd) := rfl
theorem unsupSel0 (rd : RegField) : Statement (.unsupSel0 rd) := rfl
theorem unsupSel7 (rd : RegField) : Statement (.unsupSel7 rd) := rfl
theorem unsupSel8to15 (sel : BitVec 3) (rd : RegField) : Statement (.unsupSel8to15 sel rd) := rfl
theorem add (rd rs : RegField) : Statement (.add rd rs) := rfl
theorem sub (rd rs : RegField) : Statement (.sub rd rs) := rfl
theorem or (rd rs : RegField) : Statement (.or rd rs) := rfl
theorem nor (rd rs : RegField) : Statement (.nor rd rs) := rfl
theorem and (rd rs : RegField) : Statement (.and rd rs) := rfl
theorem nand (rd rs : RegField) : Statement (.nand rd rs) := rfl
theorem xor (rd rs : RegField) : Statement (.xor rd rs) := rfl
theorem xnor (rd rs : RegField) : Statement (.xnor rd rs) := rfl
theorem adc (rd rs : RegField) : Statement (.adc rd rs) := rfl
theorem sbb (rd rs : RegField) : Statement (.sbb rd rs) := rfl
theorem cmp (rd rs : RegField) : Statement (.cmp rd rs) := rfl
theorem aluN (n : BitVec 2) (rd rs : RegField) : Statement (.aluN n rd rs) := rfl
theorem jmpReg (cc : Cond) (rd : RegField) : Statement (.jmpReg cc rd) := rfl
theorem jmpInd (cc : Cond) (rd : RegField) : Statement (.jmpInd cc rd) := rfl
theorem jmpImm (cc : Cond) (ign : RegField) (imm16 : Word) : Statement (.jmpImm cc ign imm16) := rfl
theorem unsupMode3 (cc : Cond) (rd : RegField) : Statement (.unsupMode3 cc rd) := rfl
theorem unsupMode4to7 (cc : Cond) (rd : RegField) (m : BitVec 2) : Statement (.unsupMode4to7 cc rd m) := rfl
theorem unsupMode8to15 (cc : Cond) (rd : RegField) (m : BitVec 3) : Statement (.unsupMode8to15 cc rd m) := rfl
theorem aluI0 (rd : RegField) (imm4 : BitVec 4) : Statement (.aluI0 rd imm4) := rfl
theorem addi (rd : RegField) (imm4 : BitVec 4) : Statement (.addi rd imm4) := rfl
theorem subi (rd : RegField) (imm4 : BitVec 4) : Statement (.subi rd imm4) := rfl
theorem ori (rd : RegField) (imm4 : BitVec 4) : Statement (.ori rd imm4) := rfl
theorem nori (rd : RegField) (imm4 : BitVec 4) : Statement (.nori rd imm4) := rfl
theorem andi (rd : RegField) (imm4 : BitVec 4) : Statement (.andi rd imm4) := rfl
theorem nandi (rd : RegField) (imm4 : BitVec 4) : Statement (.nandi rd imm4) := rfl
theorem xori (rd : RegField) (imm4 : BitVec 4) : Statement (.xori rd imm4) := rfl
theorem xnori (rd : RegField) (imm4 : BitVec 4) : Statement (.xnori rd imm4) := rfl
theorem adci (rd : RegField) (imm4 : BitVec 4) : Statement (.adci rd imm4) := rfl
theorem sbbi (rd : RegField) (imm4 : BitVec 4) : Statement (.sbbi rd imm4) := rfl
theorem cmpi (rd : RegField) (imm4 : BitVec 4) : Statement (.cmpi rd imm4) := rfl
theorem aluIN (n : BitVec 2) (rd : RegField) (imm4 : BitVec 4) : Statement (.aluIN n rd imm4) := rfl
theorem jr (cc : Cond) (off8 : Byte) : Statement (.jr cc off8) := rfl
theorem ld (rd rs ro : RegField) : Statement (.ld rd rs ro) := rfl
theorem st (rd rs ro : RegField) : Statement (.st rd rs ro) := rfl
theorem reserved6to7 (low : BitVec 13) : Statement (.reserved6to7 low) := rfl
theorem ldi (rd : RegField) (imm8 : Byte) : Statement (.ldi rd imm8) := rfl
theorem ldw (rd : RegField) (ign : Byte) (imm16 : Word) : Statement (.ldw rd ign imm16) := rfl
theorem reservedA (low : BitVec 12) : Statement (.reservedA low) := rfl
theorem movx (rd rs : RegField) (bankDest bankSrc : BitVec 2) : Statement (.movx rd rs bankDest bankSrc) := rfl
theorem reservedCtoF (low : BitVec 14) : Statement (.reservedCtoF low) := rfl

end Sys2Proof.Laws.EncodedLength
end

