-- ==== Sys2Proof/Certificates/Slice0/Obligations.lean ====
section
/-! DEFINITION. The statements for the provers. Each docstring names the rule of spec/ it formalises; where a clause rests
on a point the spec marks as its own decision or derivation, the docstring says so. "log <n>" is notes/assumptions/<n>.md. -/

open Sys2Proof Sys2Proof.Machine

/-! ### Reset and the host -/

/-- R400, R401: reset zeroes every register file entry, IP, SP and FL among them, and every memory byte, whatever the
parameters are. -/
def Obligations.ResetZeroesRegistersAndMemory : Prop :=
  ∀ p : Params, (∀ i, (State.resetWith p).reg i = 0) ∧ (State.resetWith p).ip = 0 ∧ (State.resetWith p).sp = 0 ∧
    (State.resetWith p).fl = 0 ∧ ∀ a : Nat, Mem.read (State.resetWith p).mem a = 0

/-- 70_reset_and_hazards.md section 1 (the spec's decision D9, its derivation R404) and 60_exceptions.md section 2 "only
reset [...] returns the block to `Running`" (decision D9): a host reset zeroes the machine, makes it Running and emits
nothing, from every state; a step and a run of a Faulted block return its recorded fault and leave it as it is; a host
register write and a load leave the run status as it is. That the record of earlier events and the parameters survive a
reset is the model's choice (log 11). -/
def Obligations.OnlyResetReturnsToRunning : Prop :=
  ∀ s : State, (∀ i, s.hostReset.reg i = 0) ∧ (∀ a : Nat, Mem.read s.hostReset.mem a = 0) ∧
    s.hostReset.status = .running ∧ s.hostReset.events = s.events ∧ s.hostReset.params = s.params ∧
    (∀ c a w, s.status = .faulted c a w →
      hostStep s = some (.fault c, s) ∧ ∀ n, runFuel (n + 1) s = some (.fault c, s)) ∧
    (∀ i v, (s.hostWriteReg i v).status = s.status) ∧ (∀ bs, (s.load bs).2.status = s.status)

/-- 70_reset_and_hazards.md section 2 (rule marked decision D16): an image that fits is copied verbatim from address 0,
bytes beyond it keep their contents, nothing else changes; a longer one is refused and changes nothing. -/
def Obligations.LoadCopiesVerbatimOrRefuses : Prop :=
  ∀ (s : State) (bs : List Byte), Mem.wf s.mem = true →
    if bs.length ≤ 65536 then
      (s.load bs).1 = .loadOk ∧ (∀ i (h : i < bs.length), Mem.read (s.load bs).2.mem i = bs[i]) ∧
      (∀ a : Nat, bs.length ≤ a → Mem.read (s.load bs).2.mem a = Mem.read s.mem a) ∧
      Mem.wf (s.load bs).2.mem = true ∧ (s.load bs).2 = { s with mem := (s.load bs).2.mem }
    else s.load bs = (.outOfBounds, s)

/-- R407: `run` repeats `step` while the result is `Continue` and returns the first other result, `Halt` or a fault; it
does not return while every step continues. The model runs it under fuel, as the rule allows (log 16). -/
def Obligations.RunReturnsFirstOtherResult : Prop :=
  (∀ (k m : Nat) (s u t : State) (r : StepResult), continueFor k s = some u → hostStep u = some (r, t) → r ≠ .cont →
    runFuel (k + 1 + m) s = some (r, t)) ∧
  (∀ (k : Nat) (s u : State), continueFor k s = some u → runFuel k s = none)

/-! ### Memory and the port -/

/-- 20_memory.md section 2, byte order: big-endian for data and for instruction fetch (R62), the formula of a word read
(R63, marked decision D14, log 15: at `0xFF01` too a read reads memory) and the fetch through it (R64); section 3, the
storing half of the write path; section 4, that the second byte's address wraps (marked derived there). In a word read, in
the fetched words and in a stored word the high byte is the one at the first address. -/
def Obligations.BigEndianReadFetchAndStore : Prop :=
  (∀ (s : State) (a : Word), s.memRead a =
    ((Mem.read s.mem a.toNat).setWidth 16 <<< 8) ||| (Mem.read s.mem (a + 1).toNat).setWidth 16) ∧
  (∀ s : State, s.fetchWord = s.memRead s.ip ∧ s.fetchImm = s.memRead (s.ip + 2)) ∧
  (∀ (s : State) (a v : Word), Mem.wf s.mem = true → a ≠ 0xFF01#16 →
    Mem.read (s.memWrite a v).mem a.toNat = v.extractLsb' 8 8 ∧
    Mem.read (s.memWrite a v).mem (a + 1).toNat = v.extractLsb' 0 8)

/-- R65: the 16-bit write path: a port event and no byte of memory at `0xFF01`, two bytes elsewhere; no register and
nothing else changes. -/
def Obligations.MemWriteStoresOrEmitsPort : Prop :=
  ∀ (s : State) (a v : Word), Mem.wf s.mem = true →
    StoresWord s (s.memWrite a v) a v ∧ (s.memWrite a v).regs = s.regs ∧
    (s.memWrite a v).status = s.status ∧ (s.memWrite a v).params = s.params

/-- 20_memory.md section 3 (its derived rule on `0xFF00` to `0xFF02`, and the decision D14 that reads at the port read
memory): a word read after a write at the same address gives the word, but at `0xFF01`, where it gives the old bytes. -/
def Obligations.WordReadAfterWrite : Prop :=
  ∀ (s : State) (a v : Word), Mem.wf s.mem = true →
    (s.memWrite a v).memRead a = if a = 0xFF01#16 then s.memRead a else v

/-- 20_memory.md section 6: after any sequence of byte writes, a byte reads as the latest write to its address gave it,
and as before where none did; so the list of pairs behaves as the flat array of bytes. -/
def Obligations.ByteReadsLatestWrite : Prop :=
  ∀ (m : Mem) (ws : List (Nat × Byte)) (a : Nat), Mem.wf m = true → (∀ w ∈ ws, w.1 < 65536) →
    Mem.read (ws.foldl (fun n w => Mem.write n w.1 w.2) m) a =
      ((ws.filter fun w => w.1 == a).getLast?.map Prod.snd).getD (Mem.read m a)

/-- The canonical form represents memory faithfully (log 13, over 20_memory.md section 1): two canonical memories that
read alike at every address are equal. -/
def Obligations.EqualReadsEqualMemory : Prop :=
  ∀ m n : Mem, Mem.wf m = true → Mem.wf n = true → (∀ a : Nat, a < 65536 → Mem.read m a = Mem.read n a) → m = n

/-- 20_memory.md section 6 (its derived rule on self-modifying code): a store to the address of the next instruction is
what the next step fetches. -/
def Obligations.StoreIsSeenByNextFetch : Prop :=
  ∀ (rd rs ro : RegField) (s : State), s.params.Admissible → Mem.wf s.mem = true →
    regIx rd ≠ s.params.regIp → regIx rs ≠ s.params.regIp → regIx ro ≠ s.params.regIp →
    s.indexed (regIx rd) (regIx ro) = s.ip + 2 → s.ip + 2 ≠ 0xFF01#16 →
    ∃ t, exec (.st rd rs ro) s = .next t ∧ t.fetchWord = s.reg (regIx rs)

/-! ### Extensions, the ALU, flags and conditions -/

/-- R10: sign extension of 8 bits, zero extension of 4 and 8 bits. -/
def Obligations.SignAndZeroExtension : Prop :=
  (∀ v : Byte, sext8 v = if v.getLsbD 7 then v.setWidth 16 + 0xFF00 else v.setWidth 16) ∧
  (∀ v : Byte, (zext8 v).toNat = v.toNat) ∧ (∀ v : BitVec 4, (zext4 v).toNat = v.toNat)

/-- R203, R204, R211, R212, R213: ADD, SUBTRACT, ADD-WITH-CARRY, SUBTRACT-WITH-BORROW and COMPARE, the carry as the
exact sum or comparison of the unsigned operands; the two corners of R211 and R212 are the last clauses. -/
def Obligations.AluArithmetic : Prop :=
  (∀ a b f : Word,
    alu 1 a b f = ⟨a + b, flagWord (a + b) (decide (2 ^ 16 ≤ a.toNat + b.toNat))⟩ ∧
    alu 2 a b f = ⟨a - b, flagWord (a - b) (decide (a.toNat < b.toNat))⟩ ∧
    (let t := a + (if f.getLsbD 1 then 1 else 0)
     alu 9 a b f = ⟨t + b, flagWord (t + b) (decide (2 ^ 16 ≤ t.toNat + b.toNat))⟩) ∧
    (let t := a - (if f.getLsbD 1 then 1 else 0)
     alu 10 a b f = ⟨t - b, flagWord (t - b) (decide (t.toNat < b.toNat))⟩) ∧
    alu 11 a b f = ⟨a, flagWord (a - b) (decide (a.toNat < b.toNat))⟩) ∧
  alu 9 0xFFFF 0 2 = ⟨0, 0x0001⟩ ∧ alu 10 0 0 2 = ⟨0xFFFF, 0x000C⟩

/-- 41_alu.md section 1, the six bitwise operations, bit by bit; their bit-level meaning is marked there as general
knowledge. The carry they pass is false. -/
def Obligations.AluBitwise : Prop :=
  ∀ (a b f : Word) (i : Nat), i < 16 →
    ((alu 3 a b f).res.getLsbD i = (a.getLsbD i || b.getLsbD i)) ∧
    ((alu 4 a b f).res.getLsbD i = !(a.getLsbD i || b.getLsbD i)) ∧
    ((alu 5 a b f).res.getLsbD i = (a.getLsbD i && b.getLsbD i)) ∧
    ((alu 6 a b f).res.getLsbD i = !(a.getLsbD i && b.getLsbD i)) ∧
    ((alu 7 a b f).res.getLsbD i = (a.getLsbD i != b.getLsbD i)) ∧
    ((alu 8 a b f).res.getLsbD i = (a.getLsbD i == b.getLsbD i)) ∧
    (∀ op ∈ ([3, 4, 5, 6, 7, 8] : List (BitVec 4)), (alu op a b f).flags = flagWord (alu op a b f).res false)

/-- R214: every operation code outside 1 to 11 gives result 0 and the ALU-error bit alone. -/
def Obligations.AluUnknownOperation : Prop :=
  ∀ (op : BitVec 4) (a b f : Word), op.toNat = 0 ∨ 12 ≤ op.toNat → alu op a b f = ⟨0x0000, 0x0040⟩

/-- R201: for every known operation the flags are Z, S, O = ¬cf ∧ S and C = cf of one raw result `c` and one carry
`cf`, and `c` is the result but for COMPARE; the other bits are 0. -/
def Obligations.KnownOperationFlags : Prop :=
  ∀ (op : BitVec 4) (a b f : Word), 1 ≤ op.toNat → op.toNat ≤ 11 →
    ∃ (c : Word) (cf : Bool), let fout := (alu op a b f).flags
      flagZ fout = decide (c = 0#16) ∧ flagS fout = c.getLsbD 15 ∧ flagO fout = (!cf && c.getLsbD 15) ∧ flagC fout = cf ∧
      (∀ i, 4 ≤ i → fout.getLsbD i = false) ∧ (op ≠ 11 → (alu op a b f).res = c) ∧ (op = 11 → c = a - b)

/-- 41_alu.md section 4 (a rule marked derived there) and the note of the condition table: what every flags word the ALU
writes satisfies; condition 8 holds of each. -/
def Obligations.AluFlagConsequences : Prop :=
  ∀ (op : BitVec 4) (a b f : Word), let fout := (alu op a b f).flags
    ¬(flagZ fout = true ∧ flagS fout = true) ∧ (flagO fout = true → flagS fout = true ∧ flagC fout = false) ∧
    (3 ≤ op.toNat → op.toNat ≤ 8 → flagO fout = flagS fout) ∧
    (∀ i, 4 ≤ i → i ≠ 6 → fout.getLsbD i = false) ∧ (flagE fout = true → fout = 0x0040) ∧
    condHolds .le fout = true

/-- 10_state.md section 5: of the incoming flags the ALU reads bit 1 alone, and only for the operations 9 and 10. -/
def Obligations.AluReadsOnlyCarry : Prop :=
  ∀ (op : BitVec 4) (a b f g : Word), (op = 9 ∨ op = 10 → flagC f = flagC g) → alu op a b f = alu op a b g

/-- R261: the condition table, each condition by its cond value and its formula over the bits of the flags word. -/
def Obligations.ConditionTable : Prop :=
  ∀ (f : Word), let z := f.getLsbD 0; let c := f.getLsbD 1; let o := f.getLsbD 2; let s := f.getLsbD 3
    condHolds (condOfBits 0) f = false ∧ condHolds (condOfBits 1) f = (!z && !c) ∧
    condHolds (condOfBits 2) f = (!c) ∧ condHolds (condOfBits 3) f = c ∧
    condHolds (condOfBits 4) f = (c || z) ∧ condHolds (condOfBits 5) f = (!z && (s == o)) ∧
    condHolds (condOfBits 6) f = (s == o) ∧ condHolds (condOfBits 7) f = (s != o) ∧
    condHolds (condOfBits 8) f = (!z || (s != z)) ∧ condHolds (condOfBits 9) f = z ∧
    condHolds (condOfBits 10) f = (!z) ∧ condHolds (condOfBits 11) f = o ∧ condHolds (condOfBits 12) f = (!o) ∧
    condHolds (condOfBits 13) f = true ∧ condHolds (condOfBits 14) f = false ∧ condHolds (condOfBits 15) f = false

/-- 42_control.md section 1: bits 4 to 15 of the flags word affect no condition. -/
def Obligations.ConditionsReadFourFlags : Prop :=
  ∀ (cc : Cond) (f g : Word), (∀ i, i < 4 → f.getLsbD i = g.getLsbD i) → condHolds cc f = condHolds cc g

/-! ### What each instruction does

Every statement of this section is over all states and all admissible choices of the reserved indices, and over every
value of the fields: which word the instruction is; where the operands are allowed, that it completes, with what result
and with what unchanged; and where they are not, that it raises ReservedRegisterMisuse (the checks are the spec's decision
D4, and that a failure has no other effect its decision D9; log 15). -/

/-- 40_one_operand.md, NOT and NEG (rules marked general knowledge, D5 and D6): the complement of all 16 bits, and
`0 - v` modulo 2^16; no flag. -/
def Obligations.NotAndNegComplete : Prop :=
  UnaryRule 1 .not (fun v => v ^^^ 0xFFFF) ∧ UnaryRule 2 .neg (fun v => BitVec.ofNat 16 (65536 - v.toNat))

/-- R155, R156: INC adds 1 and DEC subtracts 1, wrapping; no flag. -/
def Obligations.IncAndDecComplete : Prop :=
  UnaryRule 5 .inc (fun v => v + 1) ∧ UnaryRule 6 .dec (fun v => v - 1)

/-- R153: PUSH reads rd, moves SP down 2 and writes the word at the new SP through the write path, port included. -/
def Obligations.PushCompletes : Prop :=
  (∀ rd imm, decodeWords (ofNibbles 0 0 3 rd) imm = .push rd) ∧
  ∀ rd s, s.params.Admissible → Mem.wf s.mem = true →
    if regIx rd = s.params.regIp ∨ regIx rd = s.params.regSp then RaisesMisuse (.push rd) s
    else ∃ t, exec (.push rd) s = .next t ∧ t.sp = s.sp - 2 ∧ t.ip = s.ip + 2 ∧
      SameRegsBut [s.params.regSp, s.params.regIp] s t ∧ StoresWord s t (s.sp - 2) (s.reg (regIx rd)) ∧ Continues s t

/-- R154: POP reads the word at SP, moves SP up 2 and writes the word to rd. -/
def Obligations.PopCompletes : Prop :=
  (∀ rd imm, decodeWords (ofNibbles 0 0 4 rd) imm = .pop rd) ∧
  ∀ rd s, s.params.Admissible →
    if regIx rd = s.params.regIp ∨ regIx rd = s.params.regSp then RaisesMisuse (.pop rd) s
    else ∃ t, exec (.pop rd) s = .next t ∧ t.reg (regIx rd) = s.memRead s.sp ∧ t.sp = s.sp + 2 ∧ t.ip = s.ip + 2 ∧
      SameRegsBut [regIx rd, s.params.regSp, s.params.regIp] s t ∧ SameMemory s t ∧ t.events = s.events ∧
      Continues s t

/-- R217, R218, R229, R230: ADD, SUB, ADDI and SUBI. -/
def Obligations.AddAndSubComplete : Prop :=
  RegFormRule 1 .add (fun a b _ => a + b) (fun a b _ => flagWord (a + b) (decide (2 ^ 16 ≤ a.toNat + b.toNat))) ∧
  ImmFormRule 1 .addi (fun a b _ => a + b) (fun a b _ => flagWord (a + b) (decide (2 ^ 16 ≤ a.toNat + b.toNat))) ∧
  RegFormRule 2 .sub (fun a b _ => a - b) (fun a b _ => flagWord (a - b) (decide (a.toNat < b.toNat))) ∧
  ImmFormRule 2 .subi (fun a b _ => a - b) (fun a b _ => flagWord (a - b) (decide (a.toNat < b.toNat)))

/-- R219 to R224, R231 to R236: the bitwise instructions, register and immediate form. -/
def Obligations.BitwiseComplete : Prop :=
  (RegFormRule 3 .or (fun a b _ => a ||| b) (fun a b _ => flagWord (a ||| b) false) ∧
   ImmFormRule 3 .ori (fun a b _ => a ||| b) (fun a b _ => flagWord (a ||| b) false)) ∧
  (RegFormRule 4 .nor (fun a b _ => ~~~(a ||| b)) (fun a b _ => flagWord (~~~(a ||| b)) false) ∧
   ImmFormRule 4 .nori (fun a b _ => ~~~(a ||| b)) (fun a b _ => flagWord (~~~(a ||| b)) false)) ∧
  (RegFormRule 5 .and (fun a b _ => a &&& b) (fun a b _ => flagWord (a &&& b) false) ∧
   ImmFormRule 5 .andi (fun a b _ => a &&& b) (fun a b _ => flagWord (a &&& b) false)) ∧
  (RegFormRule 6 .nand (fun a b _ => ~~~(a &&& b)) (fun a b _ => flagWord (~~~(a &&& b)) false) ∧
   ImmFormRule 6 .nandi (fun a b _ => ~~~(a &&& b)) (fun a b _ => flagWord (~~~(a &&& b)) false)) ∧
  (RegFormRule 7 .xor (fun a b _ => a ^^^ b) (fun a b _ => flagWord (a ^^^ b) false) ∧
   ImmFormRule 7 .xori (fun a b _ => a ^^^ b) (fun a b _ => flagWord (a ^^^ b) false)) ∧
  (RegFormRule 8 .xnor (fun a b _ => ~~~(a ^^^ b)) (fun a b _ => flagWord (~~~(a ^^^ b)) false) ∧
   ImmFormRule 8 .xnori (fun a b _ => ~~~(a ^^^ b)) (fun a b _ => flagWord (~~~(a ^^^ b)) false))

/-- R225, R226, R237, R238: ADC, SBB, ADCI and SBBI by the two-step rule, the carry that of the second step. -/
def Obligations.AdcAndSbbComplete : Prop :=
  let cin : Word → Word := fun f => if f.getLsbD 1 then 1 else 0
  RegFormRule 9 .adc (fun a b f => a + cin f + b)
    (fun a b f => flagWord (a + cin f + b) (decide (2 ^ 16 ≤ (a + cin f).toNat + b.toNat))) ∧
  ImmFormRule 9 .adci (fun a b f => a + cin f + b)
    (fun a b f => flagWord (a + cin f + b) (decide (2 ^ 16 ≤ (a + cin f).toNat + b.toNat))) ∧
  RegFormRule 10 .sbb (fun a b f => a - cin f - b)
    (fun a b f => flagWord (a - cin f - b) (decide ((a - cin f).toNat < b.toNat))) ∧
  ImmFormRule 10 .sbbi (fun a b f => a - cin f - b)
    (fun a b f => flagWord (a - cin f - b) (decide ((a - cin f).toNat < b.toNat)))

/-- R227, R239: CMP and CMPI leave rd with its own value and set the flags of the subtraction. -/
def Obligations.CompareCompletes : Prop :=
  RegFormRule 11 .cmp (fun a _ _ => a) (fun a b _ => flagWord (a - b) (decide (a.toNat < b.toNat))) ∧
  ImmFormRule 11 .cmpi (fun a _ _ => a) (fun a b _ => flagWord (a - b) (decide (a.toNat < b.toNat)))

/-- R228, R240: an unknown ALU operation completes with result 0 and flags `0x0040`, register and immediate form. -/
def Obligations.UnknownAluFormsComplete : Prop :=
  (∀ n, RegFormRule (3#2 ++ n) (.aluN n) (fun _ _ _ => 0) (fun _ _ _ => 0x0040)) ∧
  ImmFormRule 0 .aluI0 (fun _ _ _ => 0) (fun _ _ _ => 0x0040) ∧
  (∀ n, ImmFormRule (3#2 ++ n) (.aluIN n) (fun _ _ _ => 0) (fun _ _ _ => 0x0040))

/-- R262: JMP.cc rd jumps to the value of rd, or falls through to the next instruction. -/
def Obligations.JumpRegisterCompletes : Prop :=
  (∀ c rd imm, decodeWords (ofNibbles 1 c rd 0) imm = .jmpReg (condOfBits c) rd) ∧
  ∀ cc rd s, s.params.Admissible →
    if regIx rd = s.params.regIp then RaisesMisuse (.jmpReg cc rd) s
    else ∃ t, exec (.jmpReg cc rd) s = .next t ∧
      MovesIp s t (if condHolds cc s.fl then s.reg (regIx rd) else s.ip + 2)

/-- 42_control.md, JMP.cc [rd] (a rule that cites the decision D8): the target is the word in memory at the value of
rd, big-endian and wrapping. -/
def Obligations.JumpIndirectCompletes : Prop :=
  (∀ c rd imm, decodeWords (ofNibbles 1 c rd 1) imm = .jmpInd (condOfBits c) rd) ∧
  ∀ cc rd s, s.params.Admissible →
    if regIx rd = s.params.regIp then RaisesMisuse (.jmpInd cc rd) s
    else ∃ t, exec (.jmpInd cc rd) s = .next t ∧
      MovesIp s t (if condHolds cc s.fl then s.memRead (s.reg (regIx rd)) else s.ip + 2)

/-- R264, R265: JMP.cc #imm16 jumps to its immediate, ignoring the rd field, or advances by 4; JR.cc #off8 moves from
the next instruction by the sign-extended offset, or advances by 2. Neither fails for any field. The immediate is the
word at `ip + 2`: where memory holds the instruction, the step decodes that word into it. -/
def Obligations.JumpImmediateAndRelativeComplete : Prop :=
  (∀ c ign imm, decodeWords (ofNibbles 1 c ign 2) imm = .jmpImm (condOfBits c) ign imm) ∧
  (∀ c off8 imm, decodeWords (wordOf (3#4 ++ c) off8) imm = .jr (condOfBits c) off8) ∧
  (∀ cc ign imm16 s, ∃ t, exec (.jmpImm cc ign imm16) s = .next t ∧
    MovesIp s t (if condHolds cc s.fl then imm16 else s.ip + 4)) ∧
  (∀ cc off8 s, ∃ t, exec (.jr cc off8) s = .next t ∧
    MovesIp s t (if condHolds cc s.fl then s.ip + 2 + off8.signExtend 16 else s.ip + 2)) ∧
  (∀ (s : State) cc ign imm16, decodeWords s.fetchWord s.fetchImm = .jmpImm cc ign imm16 →
    imm16 = s.memRead (s.ip + 2))

/-- R300: LD loads the word at `x[rs] + x[ro]`. -/
def Obligations.LoadIndexedCompletes : Prop :=
  (∀ rd rs ro imm, decodeWords (ofNibbles 4 rd rs ro) imm = .ld rd rs ro) ∧
  ∀ rd rs ro s, s.params.Admissible →
    if regIx rd = s.params.regIp ∨ regIx rs = s.params.regIp ∨ regIx ro = s.params.regIp then
      RaisesMisuse (.ld rd rs ro) s
    else ∃ t, exec (.ld rd rs ro) s = .next t ∧
      WritesReg s t (regIx rd) (s.memRead (s.reg (regIx rs) + s.reg (regIx ro))) (s.ip + 2)

/-- R301: ST stores `x[rs]` at `x[rd] + x[ro]` through the write path, port included; no register but IP changes. -/
def Obligations.StoreIndexedCompletes : Prop :=
  (∀ rd rs ro imm, decodeWords (ofNibbles 5 rd rs ro) imm = .st rd rs ro) ∧
  ∀ rd rs ro s, s.params.Admissible → Mem.wf s.mem = true →
    if regIx rd = s.params.regIp ∨ regIx rs = s.params.regIp ∨ regIx ro = s.params.regIp then
      RaisesMisuse (.st rd rs ro) s
    else ∃ t, exec (.st rd rs ro) s = .next t ∧ t.ip = s.ip + 2 ∧ SameRegsBut [s.params.regIp] s t ∧
      StoresWord s t (s.reg (regIx rd) + s.reg (regIx ro)) (s.reg (regIx rs)) ∧ Continues s t

/-- R302, R303: LDI zero-extends its 8-bit immediate; LDW takes its immediate word, ignores bits 7:0, and advances by 4.
The immediate is the word at `ip + 2`: where memory holds the instruction, the step decodes that word into it. -/
def Obligations.LoadImmediateCompletes : Prop :=
  (∀ rd imm8 imm, decodeWords (wordOf (8#4 ++ rd) imm8) imm = .ldi rd imm8) ∧
  (∀ rd ign imm, decodeWords (wordOf (9#4 ++ rd) ign) imm = .ldw rd ign imm) ∧
  (∀ rd imm8 s, s.params.Admissible →
    if regIx rd = s.params.regIp then RaisesMisuse (.ldi rd imm8) s
    else ∃ t, exec (.ldi rd imm8) s = .next t ∧ WritesReg s t (regIx rd) (imm8.setWidth 16) (s.ip + 2)) ∧
  (∀ rd ign imm16 s, s.params.Admissible →
    if regIx rd = s.params.regIp then RaisesMisuse (.ldw rd ign imm16) s
    else ∃ t, exec (.ldw rd ign imm16) s = .next t ∧ WritesReg s t (regIx rd) imm16 (s.ip + 4)) ∧
  (∀ (s : State) rd ign imm16, decodeWords s.fetchWord s.fetchImm = .ldw rd ign imm16 → imm16 = s.memRead (s.ip + 2))

/-- R304: MOVX copies `x[src]` to `x[dst]` for the effective indices, and every index from 0 to 63 is one. -/
def Obligations.ExtendedMoveCompletes : Prop :=
  (∀ rd rs bd bs imm, decodeWords (ofNibbles 11 rd rs (bd ++ bs)) imm = .movx rd rs bd bs) ∧
  (∀ rd rs bd bs s, s.params.Admissible →
    if bankIx rd bd = s.params.regIp ∨ bankIx rs bs = s.params.regIp then RaisesMisuse (.movx rd rs bd bs) s
    else ∃ t, exec (.movx rd rs bd bs) s = .next t ∧
      WritesReg s t (bankIx rd bd) (s.reg (bankIx rs bs)) (s.ip + 2)) ∧
  (∀ f b, (bankIx f b).val = f.toNat + 16 * b.toNat) ∧ (∀ i : RegIx, ∃ f b, bankIx f b = i)

/-- 42_control.md section 4 (marked decision D21): HLT changes no register, byte or status and its result is `Halt`; a
running block that fetches the word `0x0000` emits its trace event and halts. -/
def Obligations.HaltChangesNothing : Prop :=
  (∀ imm, decodeWords 0 imm = .hlt) ∧
  (∀ s, exec .hlt s = .next { s with result := some .halt }) ∧
  (∀ s : State, s.status = .running → s.fetchWord = 0#16 →
    step s = .next { s with
      result := some .halt, events := s.events ++ [.trace s.ip 0 (s.params.traceRegs.map fun i => (i, s.reg i))] })

/-- 30_encoding.md section 5 and 60_exceptions.md section 2 (the latter marked decision D9): each unsupported or
reserved row's instruction takes the fatal failure UnsupportedInstruction: the status records the cause, IP and the word
there, and nothing else but the step's result changes. -/
def Obligations.UnsupportedRowsTakeFailure : Prop :=
  ∀ i : Instr, unsupportedRow i = true →
  ∀ s : State, exec i s = .next { s with
    status := .faulted .unsupportedInstruction s.ip (s.memRead s.ip), result := some (.fault .unsupportedInstruction) }

/-! ### The step -/

/-- 30_encoding.md section 1 (the step, marked decision D9): when the bytes from IP decode to `i`, a running step is
exec of `i` on the state with its trace event emitted; the program counter is moved by exec alone. -/
def Obligations.StepRunsDecodedInstruction : Prop :=
  ∀ (s : State) (i : Instr) (rest : List Byte), s.status = .running → decode s.fetchBytes = .ok (i, rest) →
    step s = exec i s.emitTrace ∧
    s.emitTrace = { s with events :=
      s.events ++ [.trace s.ip s.fetchWord (s.params.traceRegs.map fun j => (j, s.reg j))] }

/-- R352: every step returns exactly one of the results `Continue`, `Halt`, `Fault(cause)`, in the priority of the step:
a Faulted block's recorded fault, with nothing changed; else `Halt` for the halt word; else the failure the step meets;
else `Continue`. -/
def Obligations.EveryStepReturnsOneResult : Prop :=
  ∀ s : State,
    match s.status with
    | .faulted c a w => step s = .fault (.terminal c a w) ∧ hostStep s = some (.fault c, s)
    | .running => ∃ t, step s = .next t ∧ hostStep s = some
        (if s.fetchWord = 0#16 then .halt else match s.nextFailure with
          | some c => .fault c
          | none => .cont, t)

/-- R353: UnsupportedInstruction is raised exactly for a reserved top nibble, an unsupported 1-operand selector (word
not `0x0000`) and an unsupported jump mode. -/
def Obligations.UnsupportedRaisedExactly : Prop :=
  ∀ s : State, s.status = .running → ∃ t, step s = .next t ∧
    ((∃ a w, t.status = .faulted .unsupportedInstruction a w) ↔
      let w := s.fetchWord
      let top := w.toNat / 4096
      (top = 6 ∨ top = 7 ∨ top = 10 ∨ top = 12 ∨ top = 13 ∨ top = 14 ∨ top = 15) ∨
      (w.toNat / 256 = 0 ∧ w ≠ 0#16 ∧ (w.toNat / 16 % 16 = 0 ∨ 7 ≤ w.toNat / 16 % 16)) ∨
      (top = 1 ∧ 3 ≤ w.toNat % 16))

/-- 60_exceptions.md section 2 (the spec's own cause, decision D4): a running step raises ReservedRegisterMisuse exactly
when the fetched word is supported and its instruction has an operand equal to `REG_IP`, is a PUSH or POP of `REG_SP`, or
is a 2-operand instruction whose rd is `REG_FL`. -/
def Obligations.MisuseRaisedExactly : Prop :=
  ∀ s : State, s.status = .running → ∃ t, step s = .next t ∧
    ((∃ a w, t.status = .faulted .reservedRegisterMisuse a w) ↔
      let i := decodeWords s.fetchWord s.fetchImm
      s.params.regIp ∈ instrOperands i ∨ stackOperand i = some s.params.regSp ∨ aluDest i = some s.params.regFl)

/-- 60_exceptions.md section 2 (marked decision D9): a fatal failure is precise: IP, every register, every byte and the
port are untouched, the trace event is emitted, and the status records the cause, IP and word. -/
def Obligations.FatalFailureIsPrecise : Prop :=
  ∀ (s t : State) (c : Cause) (a w : Word), s.status = .running → step s = .next t → t.status = .faulted c a w →
    t = { s with
      status := .faulted c s.ip (s.memRead s.ip), result := some (.fault c)
      events := s.events ++ [.trace s.ip (s.memRead s.ip) (s.params.traceRegs.map fun i => (i, s.reg i))] }

/-- R28: how each instruction sets IP: halt and a fatal failure leave it; a conditional jump goes to its target or past
itself; every other instruction advances by its length, 4 for LDW and 2 for the rest. -/
def Obligations.InstructionPointerAdvance : Prop :=
  ∀ (i : Instr) (s t : State), s.params.Admissible → s.status = .running → exec i s = .next t →
    (i = .hlt → t.ip = s.ip) ∧ (t.status ≠ .running → t.ip = s.ip) ∧
    (t.status = .running →
      (∀ cc rd, i = .jmpReg cc rd → t.ip = if condHolds cc s.fl then s.reg (regIx rd) else s.ip + 2) ∧
      (∀ cc rd, i = .jmpInd cc rd → t.ip = if condHolds cc s.fl then s.memRead (s.reg (regIx rd)) else s.ip + 2) ∧
      (∀ cc ign imm, i = .jmpImm cc ign imm → t.ip = if condHolds cc s.fl then imm else s.ip + 4) ∧
      (∀ cc off, i = .jr cc off → t.ip = if condHolds cc s.fl then s.ip + 2 + sext8 off else s.ip + 2) ∧
      (∀ rd ign imm, i = .ldw rd ign imm → t.ip = s.ip + 4) ∧
      (i ≠ .hlt → (∀ cc rd, i ≠ .jmpReg cc rd) → (∀ cc rd, i ≠ .jmpInd cc rd) → (∀ cc g m, i ≠ .jmpImm cc g m) →
        (∀ cc off, i ≠ .jr cc off) → (∀ rd g m, i ≠ .ldw rd g m) → t.ip = s.ip + 2))

/-- 10_state.md sections 1, 4 and 5, over all instructions: the only registers an instruction can change are IP, the
destination its register field names, SP for PUSH and POP, and FL for the 2-operand instructions. -/
def Obligations.RegistersOutsideDestinationsUnchanged : Prop :=
  ∀ (i : Instr) (s t : State) (j : RegIx), exec i s = .next t → j ≠ s.params.regIp → moveDest i ≠ some j →
    aluDest i ≠ some j → ((aluDest i).isSome → j ≠ s.params.regFl) →
    ((stackOperand i).isSome → j ≠ s.params.regSp) → t.reg j = s.reg j

/-- 10_state.md section 1 (marked derived there): the extended bank is reached by MOVX alone: an index from 16 to 63
that is no reserved one is unchanged by every other instruction. -/
def Obligations.ExtendedBankOnlyByMovx : Prop :=
  ∀ (i : Instr) (s t : State) (j : RegIx), exec i s = .next t → (∀ rd rs bd bs, i ≠ .movx rd rs bd bs) →
    16 ≤ j.val → j ≠ s.params.regIp → j ≠ s.params.regSp → j ≠ s.params.regFl → t.reg j = s.reg j

/-- 10_state.md section 5 (marked decision D5), over all instructions: an instruction that is no 2-operand one and whose
register field does not name FL leaves the whole flags word as it is. -/
def Obligations.FlagsOnlyByAluOrExplicitWrite : Prop :=
  ∀ (i : Instr) (s t : State), s.params.Admissible → exec i s = .next t → aluDest i = none →
    moveDest i ≠ some s.params.regFl → t.fl = s.fl

/-- 20_memory.md section 4, over all instructions: only ST and PUSH change memory or emit a port event. -/
def Obligations.MemoryOnlyByStAndPush : Prop :=
  ∀ (i : Instr) (s t : State), exec i s = .next t → (∀ rd, i ≠ .push rd) → (∀ rd rs ro, i ≠ .st rd rs ro) →
    SameMemory s t ∧ t.mem = s.mem ∧ t.events = s.events

/-- 60_exceptions.md section 7 and 00_scope.md section 4: a running step emits one trace event of the state before it,
first, and then at most one port event; the parameters never change. -/
def Obligations.OneTraceThenAtMostOnePort : Prop :=
  ∀ s t : State, s.status = .running → step s = .next t → t.params = s.params ∧
    ∃ port : List Event, t.events = s.events ++ .trace s.ip s.fetchWord s.snapshot :: port ∧
      (port = [] ∨ ∃ v, port = [.portOut v])

/-- 95_test_vectors.md L1-Q4, for one push: a POP right after a PUSH restores SP and delivers the pushed word, unless
the push went to the port address. -/
def Obligations.PopAfterPushRestores : Prop :=
  ∀ (rd rd' : RegField) (s : State), s.params.Admissible → Mem.wf s.mem = true →
    regIx rd ≠ s.params.regIp → regIx rd ≠ s.params.regSp → regIx rd' ≠ s.params.regIp →
    regIx rd' ≠ s.params.regSp → s.sp - 2 ≠ 0xFF01#16 →
    ∃ t u, exec (.push rd) s = .next t ∧ exec (.pop rd') t = .next u ∧ u.sp = s.sp ∧
      u.reg (regIx rd') = s.reg (regIx rd) ∧ u.ip = s.ip + 4 ∧
      SameRegsBut [regIx rd', s.params.regIp] s u

/-! ### Encoding -/

/-- 30_encoding.md sections 3 and 5: decoding the encoding of any well-formed instruction, at every value of its fields,
gives it back and leaves the bytes after it. That an instruction of LDW and JMP #imm16 carries the bits the spec calls
ignored is the model's choice (log 14). -/
def Obligations.DecodeOfEncode : Prop :=
  ∀ (i : Instr) (rest : List Byte), i.wf = true → decode (bytesOfWords (encode i) ++ rest) = .ok (i, rest)

/-- The other direction, over the formats of 30_encoding.md sections 3 and 5: what decodes to an instruction is its
encoding, bit for bit, and the instruction is well formed. For the bits of LDW and JMP #imm16 that the spec calls ignored
(section 5, decision D7) this is the model's choice: its instructions carry them and its encoder restores them (log 14),
where the spec's assembler writes 0 (section 6). -/
def Obligations.EncodeOfDecode : Prop :=
  ∀ (bs rest : List Byte) (i : Instr), decode bs = .ok (i, rest) →
    i.wf = true ∧ bytesOfWords (encode i) ++ rest = bs

/-- 30_encoding.md sections 3 and 5: ten words of the vectors of 95_test_vectors.md part 2 (V-STEP, V-UNARY, V-RRM, V-ADD,
V-JMP, V-JR, V-MEM three times, V-FAULT) decode to the instructions listed there. -/
def Obligations.SampleWordsDecode : Prop :=
  decodeTableWord 16 0x0000 = some .hlt ∧ decodeTableWord 16 0x0022 = some (.neg 2) ∧
  decodeTableWord 16 0x011F = some (.add 1 15) ∧ decodeTableWord 16 0x211F = some (.addi 1 15) ∧
  decodeTableWord 32 0x40001D02 = some (.jmpImm .al 0 0x4000) ∧ decodeTableWord 16 0x3DFE = some (.jr .al 0xFE) ∧
  decodeTableWord 16 0x5132 = some (.st 1 3 2) ∧ decodeTableWord 32 0x800193A5 = some (.ldw 3 0xA5 0x8001) ∧
  decodeTableWord 16 0xB12C = some (.movx 1 2 3 0) ∧ decodeTableWord 16 0x7FFF = some (.reserved6to7 0x1FFF)

/-- R115: an instruction is 4 bytes exactly when its top nibble is `1001`, or `0001` with bits 3:0 equal to 2; else 2.
The first word alone decides. -/
def Obligations.LengthFromFirstWord : Prop :=
  ∀ w imm : Word, instrLength (decodeWords w imm) =
    if w.toNat / 4096 = 9 ∨ (w.toNat / 4096 = 1 ∧ w.toNat % 16 = 2) then 4 else 2

/-! ### Headline properties -/

/-- 70_reset_and_hazards.md section 1 (reset memory, and the status Running by decision D9) with the constraints of
10_state.md section 1 (R22): reset satisfies the invariant for every admissible choice of the parameters. The second clause
rests on the model's own choice of them for `State.reset` (log 1, log 2); the invariant itself is the model's, over its
canonical memory (log 13), its recorded step result (log 4) and the premise that the parameters are admissible (log 12). -/
def Obligations.ResetSatisfiesInvariant : Prop :=
  (∀ p : Params, p.Admissible → (State.resetWith p).inv = true) ∧ State.reset.inv = true

/-- Every step keeps the invariant, from every state: memory stays canonical, the parameters stay as they are, and a
Faulted status records the very failure the block stands at, in the priority of 60_exceptions.md section 4. -/
def Obligations.StepKeepsInvariant : Prop :=
  ∀ s t : State, s.inv = true → step s = .next t → t.inv = true ∧ t.params = s.params

/-- 60_exceptions.md section 7, "the event changes no state", and decision D18: the trace parameter and the events
already emitted never influence execution: steps of two states that differ only there end alike, and in states that
differ only there. -/
def Obligations.TraceNeverInfluencesExecution : Prop :=
  ∀ s s' : State, s.eraseTrace = s'.eraseTrace →
    (∀ t, step s = .next t → ∃ t', step s' = .next t' ∧ t.eraseTrace = t'.eraseTrace) ∧
    (∀ f, step s = .fault f → step s' = .fault f)
end

