-- ==== Sys2Proof/Laws/Decode.lean ====
section
/-! SUPPORT. The decoder by the top nibble: one lemma per class of words, so that no proof unfolds the whole decoder. -/

namespace Sys2Proof

/-- The halt word decodes to HLT (R113). -/
@[simp] theorem decodeWords_halt (imm : Word) : decodeWords 0#16 imm = .hlt := rfl

/-- A word with a top nibble other than 0 is not the halt word. -/
theorem ne_zero_of_nib3 {w : Word} (h : (nib3 w).toNat ≠ 0) : w ≠ 0#16 := by
  intro hw
  subst hw
  exact h rfl

theorem decodeWords_unary {w imm : Word} (hw : w ≠ 0#16) (h3 : nib3 w = 0#4) (h2 : nib2 w = 0#4) :
    decodeWords w imm = decodeUnary w := by
  simp [decodeWords, hw, h3, h2]

theorem decodeWords_aluReg {w imm : Word} (h3 : nib3 w = 0#4) (h2 : nib2 w ≠ 0#4) :
    decodeWords w imm = decodeAluReg w := by
  have hw : w ≠ 0#16 := by
    intro hw
    subst hw
    exact h2 rfl
  simp [decodeWords, hw, h3, h2]

theorem decodeWords_jump {w imm : Word} (h : (nib3 w).toNat = 1) : decodeWords w imm = decodeJump w imm := by
  simp [decodeWords, ne_zero_of_nib3 (h.trans_ne (by decide)), h]

theorem decodeWords_aluImm {w imm : Word} (h : (nib3 w).toNat = 2) : decodeWords w imm = decodeAluImm w := by
  simp [decodeWords, ne_zero_of_nib3 (h.trans_ne (by decide)), h]

theorem decodeWords_jr {w imm : Word} (h : (nib3 w).toNat = 3) :
    decodeWords w imm = .jr (condOfBits (nib2 w)) (lowByte w) := by
  simp [decodeWords, ne_zero_of_nib3 (h.trans_ne (by decide)), h]

theorem decodeWords_ld {w imm : Word} (h : (nib3 w).toNat = 4) :
    decodeWords w imm = .ld (nib2 w) (nib1 w) (nib0 w) := by
  simp [decodeWords, ne_zero_of_nib3 (h.trans_ne (by decide)), h]

theorem decodeWords_st {w imm : Word} (h : (nib3 w).toNat = 5) :
    decodeWords w imm = .st (nib2 w) (nib1 w) (nib0 w) := by
  simp [decodeWords, ne_zero_of_nib3 (h.trans_ne (by decide)), h]

theorem decodeWords_reserved6to7 {w imm : Word} (h : (nib3 w).toNat = 6 ∨ (nib3 w).toNat = 7) :
    decodeWords w imm = .reserved6to7 (w.extractLsb' 0 13) := by
  rcases h with h | h <;> simp [decodeWords, ne_zero_of_nib3 (h.trans_ne (by decide)), h]

theorem decodeWords_ldi {w imm : Word} (h : (nib3 w).toNat = 8) :
    decodeWords w imm = .ldi (nib2 w) (lowByte w) := by
  simp [decodeWords, ne_zero_of_nib3 (h.trans_ne (by decide)), h]

theorem decodeWords_ldw {w imm : Word} (h : (nib3 w).toNat = 9) :
    decodeWords w imm = .ldw (nib2 w) (lowByte w) imm := by
  simp [decodeWords, ne_zero_of_nib3 (h.trans_ne (by decide)), h]

theorem decodeWords_reservedA {w imm : Word} (h : (nib3 w).toNat = 10) :
    decodeWords w imm = .reservedA (w.extractLsb' 0 12) := by
  simp [decodeWords, ne_zero_of_nib3 (h.trans_ne (by decide)), h]

theorem decodeWords_movx {w imm : Word} (h : (nib3 w).toNat = 11) :
    decodeWords w imm = .movx (nib2 w) (nib1 w) (w.extractLsb' 2 2) (w.extractLsb' 0 2) := by
  simp [decodeWords, ne_zero_of_nib3 (h.trans_ne (by decide)), h]

theorem decodeWords_reservedCtoF {w imm : Word} (h : 12 ≤ (nib3 w).toNat) :
    decodeWords w imm = .reservedCtoF (w.extractLsb' 0 14) := by
  have hlt := (nib3 w).isLt
  have hw : w ≠ 0#16 := ne_zero_of_nib3 (by omega)
  have hc : (nib3 w).toNat = 12 ∨ (nib3 w).toNat = 13 ∨ (nib3 w).toNat = 14 ∨ (nib3 w).toNat = 15 := by omega
  rcases hc with h | h | h | h <;> simp [decodeWords, hw, h]

/-- Only the halt word decodes to HLT. -/
theorem decodeWords_eq_hlt_iff (w imm : Word) : decodeWords w imm = .hlt ↔ w = 0#16 := by
  refine ⟨fun h => ?_, fun h => by rw [h]; rfl⟩
  by_contra hw
  revert h
  unfold decodeWords decodeUnary decodeAluReg decodeJump decodeAluImm
  simp only [hw, if_false]
  repeat' split
  all_goals simp

end Sys2Proof
end

