-- ==== Sys2Proof/Laws/Step.lean ====
section
/-! SUPPORT. What the three ways an instruction completes do (a register write, a 2-operand write-back, a jump), what an
instruction can answer at all, and a step of a running block in terms of `exec`. -/

namespace Sys2Proof.Machine

/-- A register write and an advance by `n`: that register and IP change, nothing else. -/
theorem State.setReg_advance_writesReg (s : State) (d : RegIx) (v n : Word) (hd : d ≠ s.params.regIp) :
    WritesReg s ((s.setReg d v).advance n) d v (s.ip + n) := by
  refine ⟨?_, ?_, ?_, fun _ => rfl, rfl, rfl, rfl, rfl⟩
  · simp [State.reg_advance, hd]
  · simp [State.ip_setReg, Ne.symm hd]
  · intro j hj
    simp only [List.mem_cons, List.not_mem_nil, or_false, not_or] at hj
    simp [State.reg_advance, State.reg_setReg, hj]

/-- The write-back of a 2-operand instruction: rd, FL and IP change, nothing else. -/
theorem State.writeAlu_writesAlu (s : State) (d : RegIx) (out : AluOut) (hp : s.params.regIp ≠ s.params.regFl)
    (hi : d ≠ s.params.regIp) (hf : d ≠ s.params.regFl) : WritesAlu s (s.writeAlu d out) d out.res out.flags := by
  refine ⟨?_, ?_, ?_, ?_, fun _ => rfl, rfl, rfl, rfl, rfl⟩
  · simp [State.reg_writeAlu, hi, hf]
  · simp [State.fl, State.reg_writeAlu, Ne.symm hp]
  · simp [State.ip, State.reg_writeAlu, State.reg_setFl, State.reg_setReg, Ne.symm hi, hp]
  · intro j hj
    simp only [List.mem_cons, List.not_mem_nil, or_false, not_or] at hj
    simp [State.reg_writeAlu, hj]

/-- A conditional jump: IP changes, nothing else. -/
theorem State.jump_movesIp (s : State) (cc : Cond) (target n : Word) :
    MovesIp s (s.jump cc target n) (if condHolds cc s.fl then target else s.ip + n) := by
  refine ⟨by simp, ?_, fun a => by simp, by simp, by simp [Continues]⟩
  intro j hj
  simp only [List.mem_cons, List.not_mem_nil, or_false] at hj
  simp [State.reg_jump, hj]

/-- What an instruction can answer: always a next state with the parameters as they were, and in it either a fatal
failure and nothing else, or the status as it was with the result `Continue`, or `Halt` for HLT alone. -/
theorem exec_cases (i : Instr) (s : State) :
    ∃ t, exec i s = .next t ∧ t.params = s.params ∧
      ((∃ c, t = s.raise c) ∨ (i = .hlt ∧ t = s.halt) ∨ (i ≠ .hlt ∧ t.status = s.status ∧ t.result = some .cont)) := by
  have allowed : ∀ bad u, u.params = s.params → u.status = s.status → u.result = some .cont → i ≠ .hlt →
      ∃ t, unlessMisuse bad s u = .next t ∧ t.params = s.params ∧
        ((∃ c, t = s.raise c) ∨ (i = .hlt ∧ t = s.halt) ∨
          (i ≠ .hlt ∧ t.status = s.status ∧ t.result = some .cont)) := by
    intro bad u hp hs hr hi
    cases bad
    · exact ⟨u, rfl, hp, .inr (.inr ⟨hi, hs, hr⟩)⟩
    · exact ⟨_, rfl, rfl, .inl ⟨_, rfl⟩⟩
  cases i
  case hlt => exact ⟨_, rfl, rfl, .inr (.inl ⟨rfl, rfl⟩)⟩
  case jmpImm => exact ⟨_, rfl, by simp, .inr (.inr ⟨by simp, by simp, by simp⟩)⟩
  case jr => exact ⟨_, rfl, by simp, .inr (.inr ⟨by simp, by simp, by simp⟩)⟩
  all_goals first
    | exact ⟨_, rfl, rfl, .inl ⟨_, rfl⟩⟩
    | (apply allowed <;> simp)

/-- A step of a running block. -/
theorem step_of_running {s : State} (h : s.status = .running) :
    step s = exec (decodeWords s.fetchWord s.fetchImm) s.emitTrace := by
  simp only [step, h]

/-- A step that answers a next state found the block running. -/
theorem running_of_step_next {s t : State} (h : step s = .next t) : s.status = .running := by
  unfold step at h
  split at h
  · cases h
  · assumption

end Sys2Proof.Machine
end

