-- ==== Sys2Proof/Tests/Slice0.lean ====
section
/-! SUPPORT. Tests. Expected values are the vectors of spec/95_test_vectors.md ("V-…" names the group) or hand
calculation from the rule named. The witnesses show, for each statement with hypotheses, a state and operands that meet
them, in each of its cases. -/

namespace Sys2Proof.Tests

open Sys2Proof Sys2Proof.Machine

/-! ### Helpers -/

/-- A running state at `ip` with the reset parameters: SP, FL, some registers and memory as given, the rest zero. -/
def setup (ip sp fl : Word) (regs : List (RegIx × Word)) (mem : Mem) : State :=
  (((regs.foldl (fun (s : State) r => s.setReg r.1 r.2) { State.reset with mem := mem }).setIp ip).setSp sp).setFl fl

/-- The state after one step that fetches the given word. -/
def after (s : State) (nbits w : Nat) : Option State :=
  match step (s.withFetchWord nbits w) with
  | .next t => some t
  | .fault _ | .refused _ => none

/-- One 2-operand step at `0x0100` with `x[1] = a`, `x[2] = b` and the flags `f`: x1 and the flags after it. -/
def alu12 (w : Nat) (a b f : Word) : Option (Word × Word) :=
  (after (setup 0x100 0 f [(1, a), (2, b)] []) 16 w).map fun t => (t.reg 1, t.fl)

/-- One step at `0x0100` with `x[r] = v` and the flags `0x000F`: x[r] and the flags after it. -/
def unary (w : Nat) (r : RegIx) (v : Word) : Option (Word × Word) :=
  (after (setup 0x100 0 0x000F [(r, v)] []) 16 w).map fun t => (t.reg r, t.fl)

/-- The IP after one jump at `ip`, with the flags `f` and `x[3] = v`. -/
def jumpTo (nbits w : Nat) (ip f v : Word) (mem : Mem) : Option Word :=
  (after (setup ip 0 f [(3, v)] mem) nbits w).map fun t => t.ip

/-- The status after one step at `0x0200`. -/
def statusAfter (nbits w : Nat) : Option RunStatus :=
  (after (setup 0x200 0 0 [] []) nbits w).map fun t => t.status

/-! ### WellFormed: what the checks refuse -/

theorem test_wf_refuses_selector0_of_halt : (Instr.unsupSel0 0).wf = false := by decide
theorem test_wf_accepts_selector0 : (Instr.unsupSel0 1).wf = true := by decide
theorem test_params_refuse_low_index :
    ¬ ({ resetParams with regSp := 4 } : Params).Admissible ∧ ¬ ({ resetParams with regIp := 4 } : Params).Admissible ∧
    ¬ ({ resetParams with regFl := 4 } : Params).Admissible := by decide
theorem test_params_refuse_equal_indices :
    ¬ ({ resetParams with regSp := 14 } : Params).Admissible ∧
    ¬ ({ resetParams with regSp := 15 } : Params).Admissible ∧
    ¬ ({ resetParams with regIp := 15 } : Params).Admissible := by decide
theorem test_params_refuse_unsorted_trace :
    ¬ ({ resetParams with traceRegs := [1, 0] } : Params).Admissible ∧
    ¬ ({ resetParams with traceRegs := [1, 1] } : Params).Admissible := by decide
theorem test_mem_wf_refuses_bad_lists : Mem.wf [(1, 1), (0, 1)] = false ∧ Mem.wf [(1, 1), (1, 2)] = false ∧
    Mem.wf [(1, 0)] = false ∧ Mem.wf [(65536, 1)] = false := by decide
theorem test_mem_wf_reset : Mem.wf State.reset.mem = true := by decide

/-! ### Decoding: each constructor's word, written out from 30_encoding.md's encodings -/

theorem test_decode_one_operand :
    decodeTableWord 16 0b0000000000000000 = some .hlt ∧ decodeTableWord 16 0b0000000000010001 = some (.not 1) ∧
    decodeTableWord 16 0b0000000000100010 = some (.neg 2) ∧ decodeTableWord 16 0b0000000000110011 = some (.push 3) ∧
    decodeTableWord 16 0b0000000001000100 = some (.pop 4) ∧ decodeTableWord 16 0b0000000001010001 = some (.inc 1) ∧
    decodeTableWord 16 0b0000000001100011 = some (.dec 3) := by decide
theorem test_decode_one_operand_unsupported :
    decodeTableWord 16 0b0000000000000001 = some (.unsupSel0 1) ∧
    decodeTableWord 16 0b0000000001110001 = some (.unsupSel7 1) ∧
    decodeTableWord 16 0b0000000010000101 = some (.unsupSel8to15 0 5) ∧
    decodeTableWord 16 0b0000000011110000 = some (.unsupSel8to15 7 0) := by decide
theorem test_decode_register_forms :
    decodeTableWord 16 0b0000000100100001 = some (.add 2 1) ∧ decodeTableWord 16 0b0000001000100001 = some (.sub 2 1) ∧
    decodeTableWord 16 0b0000001100100001 = some (.or 2 1) ∧ decodeTableWord 16 0b0000010000100001 = some (.nor 2 1) ∧
    decodeTableWord 16 0b0000010100100001 = some (.and 2 1) ∧ decodeTableWord 16 0b0000011000100001 = some (.nand 2 1) ∧
    decodeTableWord 16 0b0000011100100001 = some (.xor 2 1) ∧ decodeTableWord 16 0b0000100000100001 = some (.xnor 2 1) ∧
    decodeTableWord 16 0b0000100100100001 = some (.adc 2 1) ∧ decodeTableWord 16 0b0000101000100001 = some (.sbb 2 1) ∧
    decodeTableWord 16 0b0000101100100001 = some (.cmp 2 1) ∧
    decodeTableWord 16 0b0000110000010010 = some (.aluN 0 1 2) ∧
    decodeTableWord 16 0b0000111100110011 = some (.aluN 3 3 3) := by decide
theorem test_decode_absolute_jumps :
    decodeTableWord 16 0b0001110100110000 = some (.jmpReg .al 3) ∧
    decodeTableWord 16 0b0001100100110001 = some (.jmpInd .e 3) ∧
    decodeTableWord 32 0b01000000000000010001101011110010 = some (.jmpImm .ne 15 0x4001) ∧
    decodeTableWord 16 0b0001110100110011 = some (.unsupMode3 .al 3) ∧
    decodeTableWord 16 0b0001000000000101 = some (.unsupMode4to7 .nv 0 1) ∧
    decodeTableWord 16 0b0001110100001111 = some (.unsupMode8to15 .al 0 7) := by decide
theorem test_decode_immediate_forms :
    decodeTableWord 16 0b0010000000010010 = some (.aluI0 1 2) ∧ decodeTableWord 16 0b0010000100011111 = some (.addi 1 15) ∧
    decodeTableWord 16 0b0010001000010001 = some (.subi 1 1) ∧ decodeTableWord 16 0b0010001100010001 = some (.ori 1 1) ∧
    decodeTableWord 16 0b0010010000010010 = some (.nori 1 2) ∧ decodeTableWord 16 0b0010010100010000 = some (.andi 1 0) ∧
    decodeTableWord 16 0b0010011000010010 = some (.nandi 1 2) ∧
    decodeTableWord 16 0b0010011100010010 = some (.xori 1 2) ∧
    decodeTableWord 16 0b0010100000010010 = some (.xnori 1 2) ∧
    decodeTableWord 16 0b0010100100010010 = some (.adci 1 2) ∧
    decodeTableWord 16 0b0010101000010010 = some (.sbbi 1 2) ∧
    decodeTableWord 16 0b0010101100100011 = some (.cmpi 2 3) ∧
    decodeTableWord 16 0b0010111100011111 = some (.aluIN 3 1 15) := by decide
theorem test_decode_relative_jump :
    decodeTableWord 16 0b0011110111111110 = some (.jr .al 0xFE) ∧
    decodeTableWord 16 0b0011000000000000 = some (.jr .nv 0) := by decide
theorem test_decode_memory_and_moves :
    decodeTableWord 16 0b0100001100100000 = some (.ld 3 2 0) ∧ decodeTableWord 16 0b0101000100110010 = some (.st 1 3 2) ∧
    decodeTableWord 16 0b1000000010000001 = some (.ldi 0 0x81) ∧
    decodeTableWord 32 0b10000000000000011001001110100101 = some (.ldw 3 0xA5 0x8001) ∧
    decodeTableWord 16 0b1011000100101100 = some (.movx 1 2 3 0) ∧
    decodeTableWord 16 0b1011000100100011 = some (.movx 1 2 0 3) := by decide
theorem test_decode_reserved_nibbles :
    decodeTableWord 16 0b0110000000000001 = some (.reserved6to7 1) ∧
    decodeTableWord 16 0b0111111111111111 = some (.reserved6to7 0x1FFF) ∧
    decodeTableWord 16 0b1010000100100011 = some (.reservedA 0x123) ∧
    decodeTableWord 16 0b1100000000000000 = some (.reservedCtoF 0) ∧
    decodeTableWord 16 0b1111111111111111 = some (.reservedCtoF 0x3FFF) := by decide
theorem test_decode_rejects_short_lists :
    decode [] = .error .missingWord ∧ decode [0x81] = .error .missingWord ∧
    decode [0x93, 0x00] = .error .missingImmediate ∧ decode [0x1D, 0x02, 0x40] = .error .missingImmediate ∧
    decode [0x81, 0x0A, 0x82] = .ok (.ldi 1 0x0A, [0x82]) := by decide

/-! ### One-operand instructions (V-UNARY, V-STACK) -/

theorem test_not : unary 0x0011 1 0 = some (0xFFFF, 0x000F) ∧ unary 0x0011 1 0x5555 = some (0xAAAA, 0x000F) := by
  decide
theorem test_neg : unary 0x0022 2 0 = some (0, 0x000F) ∧ unary 0x0022 2 0x8000 = some (0x8000, 0x000F) ∧
    unary 0x0022 2 1 = some (0xFFFF, 0x000F) := by decide
theorem test_inc : unary 0x0051 1 0xFFFF = some (0, 0x000F) ∧ unary 0x0051 1 0x7FFF = some (0x8000, 0x000F) := by
  decide
theorem test_dec : unary 0x0063 3 0 = some (0xFFFF, 0x000F) ∧ unary 0x0063 3 0x8000 = some (0x7FFF, 0x000F) := by
  decide
theorem test_push_wraps : (after (setup 0x100 1 0 [(1, 0xABCD)] []) 16 0x0031).map
    (fun t => (t.sp, Mem.read t.mem 0xFFFF, Mem.read t.mem 0, t.ip)) = some (0xFFFF, 0xAB, 0xCD, 0x102) := by decide
theorem test_push_to_port : (after (setup 0x100 0xFF03 0 [(1, 0x1234)] []) 16 0x0031).map
    (fun t => (t.sp, t.mem, t.events.getLast?)) =
      some (0xFF01, [(0x101, 0x31)], some (.portOut 0x1234)) := by decide
theorem test_pop_wraps : (after (setup 0x100 0xFFFF 0 [] [(0, 0xCD), (0xFFFF, 0xAB)]) 16 0x0042).map
    (fun t => (t.reg 2, t.sp)) = some (0xABCD, 1) := by decide
theorem test_pop_at_port_reads_memory :
    (after (setup 0x100 0xFF01 0 [] [(0xFF01, 0x11), (0xFF02, 0x22)]) 16 0x0042).map
      (fun t => (t.reg 2, t.sp)) = some (0x1122, 0xFF03) := by decide

/-! ### Two-operand instructions (V-ADD to V-ALUERR): `alu12` with rd = r1, rs = r2 -/

theorem test_add : alu12 0x0112 0x7FFF 1 0 = some (0x8000, 0x000C) ∧ alu12 0x0112 0xFFFF 0xFFFF 0 = some (0xFFFE, 0x000A) ∧
    alu12 0x0112 0x8000 0x8000 0 = some (0, 0x0003) := by decide
theorem test_add_same_register : alu12 0x0111 0x4000 0 0 = some (0x8000, 0x000C) := by decide
theorem test_sub : alu12 0x0212 3 5 0 = some (0xFFFE, 0x000A) ∧ alu12 0x0212 0xFFFF 1 0 = some (0xFFFE, 0x000C) ∧
    alu12 0x0212 0x8000 1 0 = some (0x7FFF, 0) := by decide
theorem test_or : alu12 0x0312 0x00F0 0x0F00 2 = some (0x0FF0, 0) ∧ alu12 0x0312 0x8000 0 0 = some (0x8000, 0x000C) := by
  decide
theorem test_nor : alu12 0x0412 0x00F0 0x0F00 0 = some (0xF00F, 0x000C) ∧ alu12 0x0412 0xFFFF 0 0 = some (0, 1) := by
  decide
theorem test_and : alu12 0x0512 0xF0F0 0x0F0F 0 = some (0, 1) ∧
    alu12 0x0512 0x8001 0xFFFF 0 = some (0x8001, 0x000C) := by decide
theorem test_nand : alu12 0x0612 0x0FF0 0x00FF 0 = some (0xFF0F, 0x000C) ∧
    alu12 0x0612 0xFFFF 0xFFFF 0 = some (0, 1) := by decide
theorem test_xor : alu12 0x0712 0xFFFF 1 0 = some (0xFFFE, 0x000C) ∧ alu12 0x0712 0x1234 0x1234 0 = some (0, 1) := by
  decide
theorem test_xnor : alu12 0x0812 0x00FF 0x0F0F 0 = some (0xF00F, 0x000C) ∧ alu12 0x0812 0xFFFF 0 0 = some (0, 1) := by
  decide
theorem test_adc : alu12 0x0912 0xFFFF 0 2 = some (0, 1) ∧ alu12 0x0912 0xFFFE 1 0x000A = some (0, 3) := by decide
theorem test_adc_without_carry : alu12 0x0912 1 1 0x0040 = some (2, 0) ∧ alu12 0x0912 1 1 1 = some (2, 0) := by decide
theorem test_sbb : alu12 0x0A12 0 0 2 = some (0xFFFF, 0x000C) ∧ alu12 0x0A12 3 3 2 = some (0xFFFF, 0x000A) := by decide
theorem test_sbb_without_carry : alu12 0x0A12 5 3 0x0040 = some (2, 0) := by decide
theorem test_cmp : alu12 0x0B12 3 5 0 = some (3, 0x000A) ∧ alu12 0x0B12 0xFFFF 1 0 = some (0xFFFF, 0x000C) := by decide
theorem test_aluN : alu12 0x0C12 0x1234 7 0x000F = some (0, 0x0040) ∧ alu12 0x0F12 5 5 0 = some (0, 0x0040) := by decide
theorem test_aluI0 : alu12 0x2012 7 0 0x000F = some (0, 0x0040) := by decide
theorem test_addi : alu12 0x211F 0xFFF1 0 0 = some (0, 3) := by decide
theorem test_subi : alu12 0x2211 0 0 0 = some (0xFFFF, 0x000A) := by decide
theorem test_ori : alu12 0x2311 0x8000 0 0 = some (0x8001, 0x000C) := by decide
theorem test_nori : alu12 0x241F 0x00F0 0 0 = some (0xFF00, 0x000C) := by decide
theorem test_andi : alu12 0x2510 0xFFFF 0 0 = some (0, 1) ∧ alu12 0x251A 0xFFFF 0 0 = some (0x000A, 0) := by decide
theorem test_nandi : alu12 0x261F 0xFFFF 0 0 = some (0xFFF0, 0x000C) := by decide
theorem test_xori : alu12 0x271F 0x000F 0 0 = some (0, 1) := by decide
theorem test_xnori : alu12 0x281F 0x000F 0 0 = some (0xFFFF, 0x000C) := by decide
theorem test_adci : alu12 0x2910 0xFFFF 0 2 = some (0, 1) := by decide
theorem test_sbbi : alu12 0x2A13 3 0 2 = some (0xFFFF, 0x000A) := by decide
theorem test_cmpi : alu12 0x2B13 3 0 0 = some (3, 1) := by decide
theorem test_aluIN : alu12 0x2F1F 1 0 0 = some (0, 0x0040) := by decide

/-! ### Conditions (V-COND: a row is the conditions 0 to 15 on one flags word) -/

/-- The conditions 0 to 15 that hold of a flags word, as bits 0 to 15 of a number. -/
def condRow (f : Word) : Nat :=
  ((List.range 16).map fun n => if condHolds (condOfBits (BitVec.ofNat 4 n)) f then 2 ^ n else 0).sum

theorem test_conditions : condRow 0x0000 = 0b0011010101100110 ∧ condRow 0x0001 = 0b0011001101010100 ∧
    condRow 0x000A = 0b0011010110011000 ∧ condRow 0x000C = 0b0010110101100110 ∧
    condRow 0x0009 = 0b0011001010010100 ∧ condRow 0x0008 = 0b0011010110000110 ∧
    condRow 0x0004 = 0b0010110110000110 ∧ condRow 0x0040 = condRow 0x0000 := by decide

/-! ### Jumps (V-JMP, V-JR) -/

theorem test_jmpReg : jumpTo 16 0x1D30 0x100 0 0x1234 [] = some 0x1234 ∧
    jumpTo 16 0x1930 0x100 0 0x1234 [] = some 0x102 := by decide
theorem test_jmpInd : jumpTo 16 0x1D31 0x100 0 0x2000 [(0x2000, 0xAB), (0x2001, 0xCD)] = some 0xABCD ∧
    jumpTo 16 0x1D31 0x100 0 0xFFFF [(0, 0x34), (0xFFFF, 0x12)] = some 0x1234 := by decide
theorem test_jmpImm : jumpTo 32 0x40001D02 0x100 0 0 [] = some 0x4000 ∧
    jumpTo 32 0x40001902 0x100 0 0 [] = some 0x104 ∧ jumpTo 32 0x40001002 0xFFFE 0 0 [] = some 2 := by decide
theorem test_jmpImm_ignores_rd : jumpTo 32 0x00401DE2 0x100 0 0 [] = some 0x40 := by decide
theorem test_jr : jumpTo 16 0x3DFE 0x100 0 0 [] = some 0x100 ∧ jumpTo 16 0x3D80 0x100 0 0 [] = some 0x82 ∧
    jumpTo 16 0x3D7F 0x100 0 0 [] = some 0x181 ∧ jumpTo 16 0x3D10 0xFFF0 0 0 [] = some 2 := by decide
theorem test_jr_condition : jumpTo 16 0x3905 0x100 0 0 [] = some 0x102 ∧
    jumpTo 16 0x3905 0x100 1 0 [] = some 0x107 := by decide
theorem test_hlt : (after (setup 0x100 0 0 [(1, 5)] []) 16 0).map (fun t => (t.ip, t.reg 1, t.status, t.result)) =
    some (0x100, 5, .running, some .halt) := by decide

/-! ### Loads, stores and moves (V-MEM) -/

theorem test_ld : (after (setup 0x100 0 0 [(2, 0xFFFF), (3, 2)] [(1, 0xAA), (2, 0xBB)]) 16 0x4123).map
    (fun t => t.reg 1) = some 0xAABB := by decide
theorem test_st_wraps : (after (setup 0x100 0 0 [(1, 0xFFFF), (3, 0xBEEF)] []) 16 0x5130).map
    (fun t => (Mem.read t.mem 0xFFFF, Mem.read t.mem 0)) = some (0xBE, 0xEF) := by decide
theorem test_st_port : (after (setup 0x100 0 0 [(1, 0xFF00), (2, 1), (3, 0x48)] []) 16 0x5132).map
    (fun t => (Mem.read t.mem 0xFF01, Mem.read t.mem 0xFF02, t.events.getLast?)) =
      some (0, 0, some (.portOut 0x48)) := by decide
theorem test_ldi : (after (setup 0x100 0 0 [] []) 16 0x8080).map (fun t => (t.reg 0, t.ip)) = some (0x80, 0x102) := by
  decide
theorem test_ldw : (after (setup 0xFFFE 0 0 [] []) 32 0x123493A5).map (fun t => (t.reg 3, t.ip)) = some (0x1234, 2) := by
  decide
theorem test_movx : (after (setup 0x100 0 0 [(2, 0x1111)] []) 16 0xB12C).map (fun t => t.reg 49) = some 0x1111 ∧
    (after (setup 0x100 0 0 [(50, 0x7777)] []) 16 0xB123).map (fun t => t.reg 1) = some 0x7777 := by decide

/-! ### Fatal failures (V-FAULT, V-RRM), the step and the host -/

theorem test_unsupSel0 : statusAfter 16 0x0001 = some (.faulted .unsupportedInstruction 0x200 0x0001) := by decide
theorem test_unsupSel7 : statusAfter 16 0x0071 = some (.faulted .unsupportedInstruction 0x200 0x0071) := by decide
theorem test_unsupSel8to15 : statusAfter 16 0x00F0 = some (.faulted .unsupportedInstruction 0x200 0x00F0) := by decide
theorem test_unsupMode3 : statusAfter 16 0x1D33 = some (.faulted .unsupportedInstruction 0x200 0x1D33) := by decide
theorem test_unsupMode4to7 : statusAfter 16 0x1005 = some (.faulted .unsupportedInstruction 0x200 0x1005) := by decide
theorem test_unsupMode8to15 : statusAfter 16 0x1D0F = some (.faulted .unsupportedInstruction 0x200 0x1D0F) := by decide
theorem test_reserved6to7 : statusAfter 16 0x7FFF = some (.faulted .unsupportedInstruction 0x200 0x7FFF) := by decide
theorem test_reservedA : statusAfter 16 0xA123 = some (.faulted .unsupportedInstruction 0x200 0xA123) := by decide
theorem test_reservedCtoF : statusAfter 16 0xC000 = some (.faulted .unsupportedInstruction 0x200 0xC000) := by decide
theorem test_misuse : ∀ w ∈ ([0x8E00, 0x1DE0, 0xBE00, 0x003D, 0x004D, 0x01F1, 0x2BF0] : List Nat),
    statusAfter 16 w = some (.faulted .reservedRegisterMisuse 0x200 (BitVec.ofNat 16 w)) := by decide
theorem test_reserved_registers_used_ordinarily :
    (after (setup 0x100 5 0 [] []) 16 0x005D).map (fun t => t.sp) = some 6 ∧
    (after (setup 0x100 0 2 [(1, 3)] []) 16 0x011F).map (fun t => (t.reg 1, t.fl)) = some (5, 0) ∧
    (after (setup 0x100 0 0 [(0, 9)] []) 16 0xBF00).map (fun t => t.fl) = some 9 ∧
    (after (setup 0x100 0 0 [] []) 32 0xF0009D00).map (fun t => t.sp) = some 0xF000 := by decide
theorem test_faulted_step_repeats_fault :
    step { setup 0x200 0 0 [] [] with status := .faulted .unsupportedInstruction 0x200 0x6000 } =
      .fault (.terminal .unsupportedInstruction 0x200 0x6000) := rfl
theorem test_trace_event : (after (setup 0x200 0 0 [(1, 7)] []) 16 0x6000).map (fun t => t.events.map fun e =>
      match e with
      | .trace ip word snapshot => (ip, word, (snapshot.drop 1).head?)
      | .portOut v => (v, v, none)) = some [(0x200, 0x6000, some (1, 7))] := by decide
theorem test_load_then_run : ((runFuel 3 (State.reset.load [0x81, 0x0A, 0x00, 0x51]).2).map fun r =>
    (r.1, r.2.reg 1, r.2.ip)) = some (.halt, 0x000B, 4) := by decide
theorem test_reset_leaves_faulted :
    ({ setup 0x200 0 0 [(1, 7)] [(5, 1)] with status := .faulted .unsupportedInstruction 0x200 0x6000 } : State).hostReset =
      State.reset := by decide

/-! ### Witnesses: the hypotheses of each statement are met, in each of its cases

`base` is a running state with the indices SP = 13, IP = 14, FL = 15, `x[1] = 0x1000`, SP = `0x8000` and an admissible
choice of the parameters; the fields 1, 2, 3 name allowed registers, 13 SP, 14 IP, 15 FL. -/

/-- An ordinary running state. -/
def base : State := setup 0x100 0x8000 0 [(1, 0x1000), (2, 0x0002)] [(0x1000, 0x12), (0xFF01, 0x34)]

/-- `base` about to fetch the given word. -/
def fetching (nbits w : Nat) : State := base.withFetchWord nbits w

theorem test_witness_base : base.params.Admissible ∧ Mem.wf base.mem = true ∧ base.status = .running ∧
    base.inv = true := by decide

theorem test_witness_OnlyResetReturnsToRunning :
    (base.raise .unsupportedInstruction).status = .faulted .unsupportedInstruction 0x100 0 ∧
    (base.raise .reservedRegisterMisuse).status = .faulted .reservedRegisterMisuse 0x100 0 := by decide
theorem test_witness_LoadCopiesVerbatimOrRefuses : Mem.wf base.mem = true ∧ ([] : List Byte).length ≤ 65536 ∧
    (List.replicate 65536 (1 : Byte)).length ≤ 65536 ∧ ¬ (List.replicate 65537 (1 : Byte)).length ≤ 65536 :=
  ⟨by decide, Nat.zero_le _, List.length_replicate.le, by rw [List.length_replicate]; decide⟩
theorem test_witness_RunReturnsFirstOtherResult :
    (∃ s u t, continueFor 0 s = some u ∧ hostStep u = some (.halt, t) ∧ StepResult.halt ≠ .cont) ∧
    (∃ s u t, continueFor 1 s = some u ∧ hostStep u = some (.fault .unsupportedInstruction, t) ∧
      StepResult.fault .unsupportedInstruction ≠ .cont) :=
  ⟨⟨fetching 16 0, _, _, rfl, rfl, by decide⟩, ⟨fetching 32 0x60000051, _, _, rfl, rfl, by decide⟩⟩
theorem test_witness_BigEndianReadFetchAndStore : Mem.wf base.mem = true ∧ (0xFFFF : Word) ≠ 0xFF01#16 ∧
    (0xFF00 : Word) ≠ 0xFF01#16 := by decide
theorem test_witness_MemWriteStoresOrEmitsPort :
    Mem.wf base.mem = true ∧ (base.memWrite 0xFF01 5).events = [.portOut 5] ∧
    Mem.read (base.memWrite 0xFF00 0x0102).mem 0xFF01 = 2 ∧ Mem.read (base.memWrite 0xFFFF 0x0102).mem 0 = 2 := by decide
theorem test_witness_WordReadAfterWrite : Mem.wf base.mem = true ∧
    (base.memWrite 0xFF01 5).memRead 0xFF01 = 0x3400 ∧ (base.memWrite 0xFF00 5).memRead 0xFF00 = 5 := by decide
theorem test_witness_ByteReadsLatestWrite :
    Mem.wf base.mem = true ∧ (∀ w ∈ ([(0, 1), (65535, 2), (0, 0)] : List (Nat × Byte)), w.1 < 65536) := by decide
theorem test_witness_EqualReadsEqualMemory :
    Mem.wf (Mem.write (Mem.write [] 5 2) 5 1) = true ∧ Mem.wf [(5, 1)] = true ∧
    ∀ a : Nat, a < 65536 → Mem.read (Mem.write (Mem.write [] 5 2) 5 1) a = Mem.read [(5, 1)] a :=
  ⟨by decide, by decide, fun _ _ => rfl⟩
theorem test_witness_StoreIsSeenByNextFetch :
    let s := setup 0x100 0 0 [(1, 0x102)] []
    s.params.Admissible ∧ Mem.wf s.mem = true ∧ regIx 1 ≠ s.params.regIp ∧ regIx 3 ≠ s.params.regIp ∧
    regIx 0 ≠ s.params.regIp ∧ s.indexed (regIx 1) (regIx 0) = s.ip + 2 ∧ s.ip + 2 ≠ 0xFF01#16 := by decide

theorem test_witness_AluUnknownOperation : ∀ op ∈ ([0, 12, 15] : List (BitVec 4)), op.toNat = 0 ∨ 12 ≤ op.toNat := by
  decide
theorem test_witness_KnownOperationFlags : ∀ op ∈ ([1, 11] : List (BitVec 4)), 1 ≤ op.toNat ∧ op.toNat ≤ 11 := by decide
theorem test_witness_AluFlagConsequences : flagO (alu 1 0x7FFF 1 0).flags = true ∧ flagE (alu 12 0 0 0).flags = true ∧
    ∀ op ∈ ([3, 8] : List (BitVec 4)), 3 ≤ op.toNat ∧ op.toNat ≤ 8 := by decide
theorem test_witness_AluReadsOnlyCarry : flagC 0x0002 = flagC 0x000F ∧ ¬ ((1 : BitVec 4) = 9 ∨ (1 : BitVec 4) = 10) := by
  decide
theorem test_witness_ConditionsReadFourFlags : ∀ i, i < 4 → (0x0043 : Word).getLsbD i = (0x0003 : Word).getLsbD i := by
  decide

/-- The hypotheses of `UnaryRule`, both branches. -/
theorem test_witness_UnaryRule : base.params.Admissible ∧ ¬ regIx 1 = base.params.regIp ∧
    regIx 14 = base.params.regIp := by decide
/-- The hypotheses of `RegFormRule`, the allowed branch and each of the three that are not. -/
theorem test_witness_RegFormRule : base.params.Admissible ∧
    ¬ (regIx 1 = base.params.regIp ∨ regIx 15 = base.params.regIp ∨ regIx 1 = base.params.regFl) ∧
    regIx 14 = base.params.regIp ∧ regIx 15 = base.params.regFl := by decide
/-- The hypotheses of `ImmFormRule`. -/
theorem test_witness_ImmFormRule : base.params.Admissible ∧
    ¬ (regIx 13 = base.params.regIp ∨ regIx 13 = base.params.regFl) ∧ regIx 14 = base.params.regIp ∧
    regIx 15 = base.params.regFl := by decide
theorem test_witness_NotAndNegComplete : base.params.Admissible ∧ ¬ regIx 1 = base.params.regIp := by decide
theorem test_witness_IncAndDecComplete : base.params.Admissible ∧ ¬ regIx 13 = base.params.regIp := by decide
theorem test_witness_PushCompletes : base.params.Admissible ∧ Mem.wf base.mem = true ∧
    ¬ (regIx 1 = base.params.regIp ∨ regIx 1 = base.params.regSp) ∧ regIx 14 = base.params.regIp ∧
    regIx 13 = base.params.regSp := by decide
theorem test_witness_PushCompletes_to_port : (base.setSp 0xFF03).params.Admissible ∧
    Mem.wf (base.setSp 0xFF03).mem = true ∧ (base.setSp 0xFF03).sp - 2 = 0xFF01#16 := by decide
theorem test_witness_PopCompletes : base.params.Admissible ∧
    ¬ (regIx 15 = base.params.regIp ∨ regIx 15 = base.params.regSp) ∧ regIx 14 = base.params.regIp ∧
    regIx 13 = base.params.regSp := by decide
theorem test_witness_AddAndSubComplete : base.params.Admissible ∧
    ¬ (regIx 1 = base.params.regIp ∨ regIx 2 = base.params.regIp ∨ regIx 1 = base.params.regFl) := by decide
theorem test_witness_BitwiseComplete : base.params.Admissible ∧
    ¬ (regIx 1 = base.params.regIp ∨ regIx 1 = base.params.regIp ∨ regIx 1 = base.params.regFl) := by decide
theorem test_witness_AdcAndSbbComplete : base.params.Admissible ∧
    ¬ (regIx 13 = base.params.regIp ∨ regIx 15 = base.params.regIp ∨ regIx 13 = base.params.regFl) := by decide
theorem test_witness_CompareCompletes : base.params.Admissible ∧
    ¬ (regIx 2 = base.params.regIp ∨ regIx 1 = base.params.regIp ∨ regIx 2 = base.params.regFl) := by decide
theorem test_witness_UnknownAluFormsComplete : base.params.Admissible ∧
    ¬ (regIx 3 = base.params.regIp ∨ regIx 3 = base.params.regIp ∨ regIx 3 = base.params.regFl) := by decide
theorem test_witness_JumpRegisterCompletes : base.params.Admissible ∧ ¬ regIx 1 = base.params.regIp ∧
    regIx 14 = base.params.regIp ∧ condHolds .al base.fl = true ∧ condHolds .e base.fl = false := by decide
theorem test_witness_JumpIndirectCompletes : base.params.Admissible ∧ ¬ regIx 1 = base.params.regIp ∧
    regIx 14 = base.params.regIp ∧ condHolds .ne base.fl = true ∧ condHolds .nv base.fl = false := by decide
theorem test_witness_JumpImmediateAndRelativeComplete :
    decodeWords (fetching 32 0x40001D02).fetchWord (fetching 32 0x40001D02).fetchImm = .jmpImm .al 0 0x4000 := by decide
theorem test_witness_LoadIndexedCompletes : base.params.Admissible ∧
    ¬ (regIx 3 = base.params.regIp ∨ regIx 1 = base.params.regIp ∨ regIx 2 = base.params.regIp) ∧
    regIx 14 = base.params.regIp := by decide
theorem test_witness_StoreIndexedCompletes : base.params.Admissible ∧ Mem.wf base.mem = true ∧
    ¬ (regIx 1 = base.params.regIp ∨ regIx 3 = base.params.regIp ∨ regIx 2 = base.params.regIp) ∧
    regIx 14 = base.params.regIp ∧ base.reg (regIx 1) + base.reg (regIx 2) ≠ 0xFF01#16 ∧
    (base.setReg 1 0xFF01).reg (regIx 1) + (base.setReg 1 0xFF01).reg (regIx 0) = 0xFF01#16 := by decide
theorem test_witness_LoadImmediateCompletes : base.params.Admissible ∧ ¬ regIx 1 = base.params.regIp ∧
    regIx 14 = base.params.regIp ∧
    decodeWords (fetching 32 0x123493A5).fetchWord (fetching 32 0x123493A5).fetchImm = .ldw 3 0xA5 0x1234 := by decide
theorem test_witness_ExtendedMoveCompletes : base.params.Admissible ∧
    ¬ (bankIx 0 0 = base.params.regIp ∨ bankIx 15 3 = base.params.regIp) ∧ bankIx 14 0 = base.params.regIp := by decide
theorem test_witness_HaltChangesNothing : (fetching 16 0).status = .running ∧ (fetching 16 0).fetchWord = 0#16 := by
  decide
theorem test_witness_UnsupportedRowsTakeFailure :
    (∀ i ∈ [Instr.unsupSel0 1, .unsupSel7 0, .unsupSel8to15 0 0, .unsupMode3 .al 0, .unsupMode4to7 .nv 0 0],
      unsupportedRow i = true) ∧
    (∀ i ∈ [Instr.unsupMode8to15 .nv 0 7, .reserved6to7 0, .reservedA 0, .reservedCtoF 0],
      unsupportedRow i = true) := by decide

theorem test_witness_StepRunsDecodedInstruction :
    (fetching 16 0x0121).status = .running ∧ decode (fetching 16 0x0121).fetchBytes = .ok (.add 2 1, [0, 0]) ∧
    decode (fetching 32 0x123493A5).fetchBytes = .ok (.ldw 3 0xA5 0x1234, []) := by decide
theorem test_witness_EveryStepReturnsOneResult :
    (fetching 16 0x0121).status = .running ∧ (fetching 16 0x0121).nextFailure = none ∧
    (fetching 16 0x0121).fetchWord ≠ 0#16 ∧ (fetching 16 0x0000).fetchWord = 0#16 ∧
    (fetching 16 0x6000).nextFailure = some .unsupportedInstruction ∧
    (fetching 16 0x8E00).nextFailure = some .reservedRegisterMisuse ∧
    (base.raise .unsupportedInstruction).status = .faulted .unsupportedInstruction 0x100 0 := by decide
theorem test_witness_UnsupportedRaisedExactly : ∀ w ∈ ([0x6000, 0xA000, 0xFFFF, 0x0001, 0x0070, 0x1003] : List Nat),
    (fetching 16 w).status = .running ∧ unsupportedWord (fetching 16 w).fetchWord = true := by decide
theorem test_witness_UnsupportedRaisedExactly_not : ∀ w ∈ ([0x0000, 0x0010, 0x006F, 0x1002, 0x5FFF, 0x0100] : List Nat),
    (fetching 16 w).status = .running ∧ unsupportedWord (fetching 16 w).fetchWord = false := by decide
theorem test_witness_MisuseRaisedExactly :
    base.params.regIp ∈ instrOperands (.ldi 14 0) ∧ stackOperand (.push 13) = some base.params.regSp ∧
    aluDest (.addi 15 0) = some base.params.regFl ∧ (fetching 16 0x8E00).status = .running ∧
    decodeWords (fetching 16 0x8E00).fetchWord (fetching 16 0x8E00).fetchImm = .ldi 14 0 := by decide
theorem test_witness_FatalFailureIsPrecise : ∃ t, (fetching 16 0x6000).status = .running ∧
    step (fetching 16 0x6000) = .next t ∧ t.status = .faulted .unsupportedInstruction 0x100 0x6000 :=
  ⟨_, rfl, rfl, by decide⟩
theorem test_witness_InstructionPointerAdvance :
    (∃ t, base.params.Admissible ∧ base.status = .running ∧ exec (.ldw 3 0 5) base = .next t ∧ t.status = .running) ∧
    (∃ t, exec .hlt base = .next t ∧ t.status = .running) ∧
    (∃ t, exec (.jr .al 0x80) base = .next t ∧ t.status = .running) ∧
    (∃ t, exec (.add 1 2) base = .next t ∧ t.status = .running) ∧
    (∃ t, exec (.add 15 2) base = .next t ∧ t.status ≠ .running) :=
  ⟨⟨_, by decide, rfl, rfl, by decide⟩, ⟨_, rfl, by decide⟩, ⟨_, rfl, by decide⟩, ⟨_, rfl, by decide⟩,
    ⟨_, rfl, by decide⟩⟩
theorem test_witness_InstructionPointerAdvance_absolute_jumps :
    (∃ t, exec (.jmpReg .al 1) base = .next t ∧ t.status = .running) ∧
    (∃ t, exec (.jmpInd .nv 1) base = .next t ∧ t.status = .running) ∧
    (∃ t, exec (.jmpImm .al 14 0) base = .next t ∧ t.status = .running) :=
  ⟨⟨_, rfl, by decide⟩, ⟨_, rfl, by decide⟩, ⟨_, rfl, by decide⟩⟩
theorem test_witness_RegistersOutsideDestinationsUnchanged : ∃ t, exec (.add 1 2) base = .next t ∧
    (2 : RegIx) ≠ base.params.regIp ∧ moveDest (.add 1 2) ≠ some 2 ∧ aluDest (.add 1 2) ≠ some 2 ∧
    ((aluDest (.add 1 2)).isSome → (2 : RegIx) ≠ base.params.regFl) ∧
    ((stackOperand (.add 1 2)).isSome → (2 : RegIx) ≠ base.params.regSp) :=
  ⟨_, rfl, by decide, by decide, by decide, by decide, by decide⟩
theorem test_witness_ExtendedBankOnlyByMovx : ∃ t, exec (.add 1 2) base = .next t ∧
    (∀ rd rs bd bs, Instr.add 1 2 ≠ .movx rd rs bd bs) ∧ 16 ≤ (16 : RegIx).val ∧ 16 ≤ (63 : RegIx).val ∧
    (16 : RegIx) ≠ base.params.regIp ∧ (16 : RegIx) ≠ base.params.regSp ∧ (16 : RegIx) ≠ base.params.regFl :=
  ⟨_, rfl, fun _ _ _ _ => by simp, by decide, by decide, by decide, by decide, by decide⟩
theorem test_witness_FlagsOnlyByAluOrExplicitWrite : ∃ t, base.params.Admissible ∧ exec (.inc 1) base = .next t ∧
    aluDest (.inc 1) = none ∧ moveDest (.inc 1) ≠ some base.params.regFl :=
  ⟨_, by decide, rfl, rfl, by decide⟩
theorem test_witness_MemoryOnlyByStAndPush : ∃ t, exec (.ld 3 1 2) base = .next t ∧ (∀ rd, Instr.ld 3 1 2 ≠ .push rd) ∧
    (∀ rd rs ro, Instr.ld 3 1 2 ≠ .st rd rs ro) :=
  ⟨_, rfl, fun _ => by simp, fun _ _ _ => by simp⟩
theorem test_witness_OneTraceThenAtMostOnePort :
    (∃ t, (fetching 16 0x0121).status = .running ∧ step (fetching 16 0x0121) = .next t ∧ t.events.length = 1) ∧
    (∃ t, ((fetching 16 0x0031).setSp 0xFF03).status = .running ∧
      step ((fetching 16 0x0031).setSp 0xFF03) = .next t ∧ t.events.length = 2) :=
  ⟨⟨_, rfl, rfl, by decide⟩, ⟨_, rfl, rfl, by decide⟩⟩
theorem test_witness_PopAfterPushRestores : base.params.Admissible ∧ Mem.wf base.mem = true ∧
    regIx 1 ≠ base.params.regIp ∧ regIx 1 ≠ base.params.regSp ∧ regIx 2 ≠ base.params.regIp ∧
    regIx 2 ≠ base.params.regSp ∧ base.sp - 2 ≠ 0xFF01#16 := by decide

theorem test_witness_DecodeOfEncode : (Instr.unsupSel0 1).wf = true ∧ (Instr.ldw 15 255 0xFFFF).wf = true := by decide
theorem test_witness_EncodeOfDecode : decode [0x1D, 0xE2, 0x00, 0x40, 0x05] = .ok (.jmpImm .al 14 0x40, [0x05]) ∧
    decode [0xFF, 0xFF] = .ok (.reservedCtoF 0x3FFF, []) := by decide
theorem test_witness_ResetSatisfiesInvariant : resetParams.Admissible := by decide
theorem test_witness_StepKeepsInvariant :
    (∃ t, (fetching 16 0x0121).inv = true ∧ step (fetching 16 0x0121) = .next t ∧ t.status = .running) ∧
    (∃ t, (fetching 16 0x8E00).inv = true ∧ step (fetching 16 0x8E00) = .next t ∧ t.status ≠ .running) :=
  ⟨⟨_, by decide, rfl, by decide⟩, ⟨_, by decide, rfl, by decide⟩⟩
theorem test_witness_TraceNeverInfluencesExecution :
    let s := fetching 16 0x0121
    let s' := { s with params := { s.params with traceRegs := [63] }, events := [.portOut 1] }
    s.eraseTrace = s'.eraseTrace ∧ s ≠ s' ∧ (∃ t, step s = .next t) ∧
    step (s.raise .unsupportedInstruction) = .fault (.terminal .unsupportedInstruction 0x100 0x0121) :=
  ⟨rfl, by decide, ⟨_, rfl⟩, rfl⟩

end Sys2Proof.Tests
end

/-! ### The extensions of R10 as numbers and as words -/

namespace Sys2Proof.Machine

@[simp] theorem toNat_zext8 (v : Byte) : (zext8 v).toNat = v.toNat :=
  BitVec.toNat_setWidth_of_le (by decide)

@[simp] theorem toNat_zext4 (v : BitVec 4) : (zext4 v).toNat = v.toNat :=
  BitVec.toNat_setWidth_of_le (by decide)

theorem sext8_of_nonneg {v : Byte} (h : v.getLsbD 7 = false) : sext8 v = v.setWidth 16 :=
  BitVec.signExtend_eq_setWidth_of_msb_false h

/-- The copies of a set bit 7 fill the upper byte, which is to add `2 ^ 16 - 2 ^ 8 = 0xFF00`. -/
theorem sext8_of_neg {v : Byte} (h : v.getLsbD 7 = true) : sext8 v = v.setWidth 16 + 0xFF00 := by
  have hmsb : v.msb = true := h
  have hfill : (sext8 v).toNat = (v.setWidth 16).toNat + 0xFF00 := by
    simp [sext8, BitVec.toNat_signExtend, hmsb]
  bv_omega

/-- Settles O11: sign extension by the value of bit 7, zero extension by its number. -/
theorem signAndZeroExtension : Obligations.SignAndZeroExtension := by
  refine ⟨fun v => ?_, toNat_zext8, toNat_zext4⟩
  cases hbit : v.getLsbD 7 with
  | false => exact sext8_of_nonneg hbit
  | true => exact sext8_of_neg hbit

end Sys2Proof.Machine

/-! ### Where IP goes (R28) -/

namespace Sys2Proof.Machine

/-- R28 as a function: the IP after instruction `i` completes in state `s`. -/
def nextIp (i : Instr) (s : State) : Word :=
  match i with
  | .hlt => s.ip
  | .jmpReg cc rd => if condHolds cc s.fl then s.reg (regIx rd) else s.ip + 2
  | .jmpInd cc rd => if condHolds cc s.fl then s.memRead (s.reg (regIx rd)) else s.ip + 2
  | .jmpImm cc _ imm16 => if condHolds cc s.fl then imm16 else s.ip + 4
  | .jr cc off8 => if condHolds cc s.fl then s.ip + 2 + sext8 off8 else s.ip + 2
  | .ldw _ _ _ => s.ip + 4
  | _ => s.ip + 2

/-- The instructions that R28 does not name one by one are 2 bytes long and advance past themselves. -/
theorem nextIp_of_ne {i : Instr} (s : State) (hhlt : i ≠ .hlt) (hreg : ∀ cc rd, i ≠ .jmpReg cc rd)
    (hind : ∀ cc rd, i ≠ .jmpInd cc rd) (himm : ∀ cc g m, i ≠ .jmpImm cc g m) (hjr : ∀ cc off, i ≠ .jr cc off)
    (hldw : ∀ rd g m, i ≠ .ldw rd g m) : nextIp i s = s.ip + 2 := by
  unfold nextIp
  split
  · exact absurd rfl hhlt
  · exact absurd rfl (hreg _ _)
  · exact absurd rfl (hind _ _)
  · exact absurd rfl (himm _ _ _)
  · exact absurd rfl (hjr _ _)
  · exact absurd rfl (hldw _ _ _)
  · rfl

@[simp] theorem State.isIp_eq_false_iff (s : State) (i : RegIx) : s.isIp i = false ↔ i ≠ s.params.regIp :=
  decide_eq_false_iff_not

theorem State.raise_status_ne_running (s : State) (c : Cause) : (s.raise c).status ≠ .running := by simp

/-- A block still running after the check of R357 has passed it. -/
theorem unlessMisuse_next_running {bad : Bool} {s t u : State} (h : unlessMisuse bad s t = .next u)
    (hu : u.status = .running) : bad = false ∧ u = t := by
  obtain ⟨-, rfl⟩ | hpassed := unlessMisuse_next h
  · exact absurd hu (s.raise_status_ne_running _)
  · exact hpassed

/-- A register write behind a check that keeps its destination off IP. -/
theorem setReg_advance_next_ip {bad : Bool} {s t : State} {d : RegIx} {v n : Word}
    (h : unlessMisuse bad s ((s.setReg d v).advance n) = .next t) (ht : t.status = .running)
    (hd : bad = false → d ≠ s.params.regIp) : t.ip = s.ip + n := by
  obtain ⟨hbad, rfl⟩ := unlessMisuse_next_running h ht
  obtain ⟨-, hip, -⟩ := s.setReg_advance_writesReg d v n (hd hbad)
  exact hip

/-- The write-back of a 2-operand instruction; FL, which it writes too, is not IP (R22). -/
theorem State.ip_writeAlu {s : State} {d : RegIx} (out : AluOut) (hd : d ≠ s.params.regIp)
    (hfl : s.params.regIp ≠ s.params.regFl) : (s.writeAlu d out).ip = s.ip + 2 := by
  simp [State.writeAlu, State.ip_setFl, State.ip_setReg, hfl, hd.symm]

theorem regForm_next_ip {op : BitVec 4} {rd rs : RegField} {s t : State} (hfl : s.params.regIp ≠ s.params.regFl)
    (h : regForm op rd rs s = .next t) (ht : t.status = .running) : t.ip = s.ip + 2 := by
  obtain ⟨hbad, rfl⟩ := unlessMisuse_next_running h ht
  simp only [Bool.or_eq_false_iff, State.isIp_eq_false_iff] at hbad
  obtain ⟨⟨hrd, -⟩, -⟩ := hbad
  exact State.ip_writeAlu _ hrd hfl

theorem immForm_next_ip {op imm4 : BitVec 4} {rd : RegField} {s t : State} (hfl : s.params.regIp ≠ s.params.regFl)
    (h : immForm op rd imm4 s = .next t) (ht : t.status = .running) : t.ip = s.ip + 2 := by
  obtain ⟨hbad, rfl⟩ := unlessMisuse_next_running h ht
  simp only [Bool.or_eq_false_iff, State.isIp_eq_false_iff] at hbad
  obtain ⟨hrd, -⟩ := hbad
  exact State.ip_writeAlu _ hrd hfl

/-- A jump through a register, behind the check of that register. -/
theorem jump_next_ip {bad : Bool} {s t : State} {cc : Cond} {target n : Word}
    (h : unlessMisuse bad s (s.jump cc target n) = .next t) (ht : t.status = .running) :
    t.ip = if condHolds cc s.fl then target else s.ip + n := by
  obtain ⟨-, rfl⟩ := unlessMisuse_next_running h ht
  exact s.jump_ip cc target n

theorem execPush_next_ip {rd : RegField} {s t : State} (hsp : s.params.regIp ≠ s.params.regSp)
    (h : execPush rd s = .next t) (ht : t.status = .running) : t.ip = s.ip + 2 := by
  obtain ⟨-, rfl⟩ := unlessMisuse_next_running h ht
  simp [State.ip_setSp, hsp]

theorem execPop_next_ip {rd : RegField} {s t : State} (hsp : s.params.regIp ≠ s.params.regSp)
    (h : execPop rd s = .next t) (ht : t.status = .running) : t.ip = s.ip + 2 := by
  obtain ⟨hbad, rfl⟩ := unlessMisuse_next_running h ht
  simp only [Bool.or_eq_false_iff, State.isIp_eq_false_iff] at hbad
  obtain ⟨hrd, -⟩ := hbad
  simp [State.ip_setSp, State.ip_setReg, hsp, hrd.symm]

theorem execSt_next_ip {rd rs ro : RegField} {s t : State} (h : execSt rd rs ro s = .next t)
    (ht : t.status = .running) : t.ip = s.ip + 2 := by
  obtain ⟨-, rfl⟩ := unlessMisuse_next_running h ht
  simp

/-- An instruction after which the block still runs has set IP as R28 says. -/
theorem exec_next_ip {i : Instr} {s t : State} (hadm : s.params.Admissible) (h : exec i s = .next t)
    (ht : t.status = .running) : t.ip = nextIp i s := by
  obtain ⟨-, -, -, hsp, -, hfl, -⟩ := hadm
  cases i with
  | hlt => cases h; exact s.ip_halt
  | push => exact execPush_next_ip hsp.symm h ht
  | pop => exact execPop_next_ip hsp.symm h ht
  | add | sub | or | nor | and | nand | xor | xnor | adc | sbb | cmp | aluN => exact regForm_next_ip hfl h ht
  | aluI0 | addi | subi | ori | nori | andi | nandi | xori | xnori | adci | sbbi | cmpi | aluIN =>
    exact immForm_next_ip hfl h ht
  | jmpReg | jmpInd => exact jump_next_ip h ht
  | jmpImm | jr => cases h; exact s.jump_ip _ _ _
  | ld | movx => exact setReg_advance_next_ip h ht fun hbad => by simp_all
  | st => exact execSt_next_ip h ht
  | not | neg | inc | dec | ldi | ldw => exact setReg_advance_next_ip h ht (s.isIp_eq_false_iff _).1
  | unsupSel0 | unsupSel7 | unsupSel8to15 | unsupMode3 | unsupMode4to7 | unsupMode8to15 | reserved6to7 | reservedA
  | reservedCtoF => cases h; exact absurd ht (s.raise_status_ne_running _)

/-- A fatal failure leaves IP at the instruction that failed (R354). -/
theorem exec_next_ip_of_failed {i : Instr} {s t : State} (hs : s.status = .running) (h : exec i s = .next t)
    (ht : t.status ≠ .running) : t.ip = s.ip := by
  obtain ⟨u, hu, -, hcases⟩ := exec_cases i s
  cases hu.symm.trans h
  obtain ⟨c, rfl⟩ | ⟨-, rfl⟩ | ⟨-, hstatus, -⟩ := hcases
  · exact s.ip_raise c
  · exact s.ip_halt
  · exact absurd (hstatus.trans hs) ht

/-- Settles O43: a failure leaves IP, and where the block runs on IP is `nextIp`, read off case by case. -/
theorem instructionPointerAdvance : Obligations.InstructionPointerAdvance := by
  intro i s t hadm hs h
  have hfailed := exec_next_ip_of_failed hs h
  refine ⟨?_, hfailed, fun ht => ?_⟩
  · rintro rfl
    cases h
    exact s.ip_halt
  · have hip : t.ip = nextIp i s := exec_next_ip hadm h ht
    refine ⟨?_, ?_, ?_, ?_, ?_, fun hhlt hreg hind himm hjr hldw => ?_⟩
    · rintro cc rd rfl; exact hip
    · rintro cc rd rfl; exact hip
    · rintro cc ign imm rfl; exact hip
    · rintro cc off rfl; exact hip
    · rintro rd ign imm rfl; exact hip
    · exact hip.trans (nextIp_of_ne s hhlt hreg hind himm hjr hldw)

end Sys2Proof.Machine

/-! ### The 16-bit write path (R65) -/

namespace Sys2Proof.Machine

/-- Settles O6: what memory and the events take is `State.memWrite_storesWord`, the rest is the frame of `memWrite`. -/
theorem memWriteStoresOrEmitsPort : Obligations.MemWriteStoresOrEmitsPort := by
  intro s a v hwf
  have hstored : StoresWord s (s.memWrite a v) a v := s.memWrite_storesWord a v hwf
  exact ⟨hstored, s.memWrite_regs a v, s.memWrite_status a v, s.memWrite_params a v⟩

end Sys2Proof.Machine

/-! ### The length of an instruction (R115) -/

namespace Sys2Proof

theorem immWord_decodeUnary (w : Word) : immWord (decodeUnary w) = none := by
  unfold decodeUnary
  split <;> rfl

theorem immWord_decodeAluReg (w : Word) : immWord (decodeAluReg w) = none := by
  unfold decodeAluReg
  split <;> rfl

theorem immWord_decodeAluImm (w : Word) : immWord (decodeAluImm w) = none := by
  unfold decodeAluImm
  split <;> rfl

/-- Of the absolute jumps only mode 2, JMP #imm16, takes the word after the first. -/
theorem immWord_decodeJump (w imm : Word) :
    immWord (decodeJump w imm) = if (nib0 w).toNat = 2 then some imm else none := by
  unfold decodeJump
  split <;> simp_all [immWord]

/-- Under top nibble 0 stand HLT, the 1-operand and the register forms: none has an immediate word. -/
theorem immWord_decodeWords_of_nib3_zero {w : Word} (imm : Word) (h3 : nib3 w = 0#4) :
    immWord (decodeWords w imm) = none := by
  by_cases hw : w = 0#16
  · rw [hw, decodeWords_halt, immWord]
  · by_cases h2 : nib2 w = 0#4
    · rw [decodeWords_unary hw h3 h2, immWord_decodeUnary]
    · rw [decodeWords_aluReg h3 h2, immWord_decodeAluReg]

/-- `hasImmWord` as R115 writes it, over the numbers of the top and the bottom nibble. -/
theorem hasImmWord_iff_nibbles (w : Word) :
    hasImmWord w = true ↔ (nib3 w).toNat = 9 ∨ ((nib3 w).toNat = 1 ∧ (nib0 w).toNat = 2) := by
  simp [hasImmWord, ← BitVec.toNat_inj]

theorem hasImmWord_iff_toNat (w : Word) :
    hasImmWord w = true ↔ w.toNat / 4096 = 9 ∨ (w.toNat / 4096 = 1 ∧ w.toNat % 16 = 2) := by
  have htop : (nib3 w).toNat = w.toNat / 4096 := by
    have hlt := w.isLt
    rw [toNat_nib3]
    omega
  rw [hasImmWord_iff_nibbles, htop, toNat_nib0]

/-- The decoded instruction has an immediate word exactly when the first word announces one, and it is the word that
follows. -/
theorem immWord_decodeWords (w imm : Word) :
    immWord (decodeWords w imm) = if hasImmWord w then some imm else none := by
  simp only [hasImmWord_iff_nibbles]
  match h : (nib3 w).toNat with
  | 0 => simp [immWord_decodeWords_of_nib3_zero imm (BitVec.eq_of_toNat_eq h)]
  | 1 => simp [decodeWords_jump h, immWord_decodeJump]
  | 2 => simp [decodeWords_aluImm h, immWord_decodeAluImm]
  | 3 => simp [decodeWords_jr h, immWord]
  | 4 => simp [decodeWords_ld h, immWord]
  | 5 => simp [decodeWords_st h, immWord]
  | 6 => simp [decodeWords_reserved6to7 (.inl h), immWord]
  | 7 => simp [decodeWords_reserved6to7 (.inr h), immWord]
  | 8 => simp [decodeWords_ldi h, immWord]
  | 9 => simp [decodeWords_ldw h, immWord]
  | 10 => simp [decodeWords_reservedA h, immWord]
  | 11 => simp [decodeWords_movx h, immWord]
  | n + 12 => simp [decodeWords_reservedCtoF (w := w) (by omega), immWord]

/-- The first word alone decides the length: the word after it does not occur on the right. -/
theorem instrLength_decodeWords (w imm : Word) :
    instrLength (decodeWords w imm) = if hasImmWord w then 4 else 2 := by
  rw [instrLength, immWord_decodeWords]
  cases hasImmWord w <;> rfl

/-- Settles O53: the length is that of `hasImmWord`, which is R115's condition on the number of the first word. -/
theorem lengthFromFirstWord : Obligations.LengthFromFirstWord := by
  intro w imm
  simp only [instrLength_decodeWords, hasImmWord_iff_toNat]

end Sys2Proof

/-! ### The words of the 1-operand instructions (R104) -/

namespace Sys2Proof

/-- A selector other than 0 tells the word from the halt word, whatever rd is. -/
theorem decodeWords_ofNibbles_unary {sel : BitVec 4} (rd : BitVec 4) (imm : Word) (hsel : sel ≠ 0#4) :
    decodeWords (ofNibbles 0 0 sel rd) imm = decodeUnary (ofNibbles 0 0 sel rd) := by
  have hne : ofNibbles 0 0 sel rd ≠ 0#16 := fun hw => hsel <| calc
    sel = nib1 (ofNibbles 0 0 sel rd) := (nib1_ofNibbles ..).symm
    _ = nib1 0#16 := congrArg nib1 hw
    _ = 0#4 := rfl
  exact decodeWords_unary hne (nib3_ofNibbles ..) (nib2_ofNibbles ..)

theorem decodeWords_push (rd : BitVec 4) (imm : Word) : decodeWords (ofNibbles 0 0 3 rd) imm = .push rd := by
  rw [decodeWords_ofNibbles_unary rd imm (by decide)]
  simp [decodeUnary]

theorem decodeWords_pop (rd : BitVec 4) (imm : Word) : decodeWords (ofNibbles 0 0 4 rd) imm = .pop rd := by
  rw [decodeWords_ofNibbles_unary rd imm (by decide)]
  simp [decodeUnary]

theorem decodeWords_inc (rd : BitVec 4) (imm : Word) : decodeWords (ofNibbles 0 0 5 rd) imm = .inc rd := by
  rw [decodeWords_ofNibbles_unary rd imm (by decide)]
  simp [decodeUnary]

theorem decodeWords_dec (rd : BitVec 4) (imm : Word) : decodeWords (ofNibbles 0 0 6 rd) imm = .dec rd := by
  rw [decodeWords_ofNibbles_unary rd imm (by decide)]
  simp [decodeUnary]

end Sys2Proof

/-! ### INC and DEC (R155, R156) -/

namespace Sys2Proof.Machine

/-- A 1-operand instruction whose meaning is `unaryForm` obeys the rule of R150: the check of IP, then one register
write. -/
theorem unaryRule_of_unaryForm {sel : BitVec 4} {mk : RegField → Instr} {f : Word → Word}
    (hword : ∀ rd imm, decodeWords (ofNibbles 0 0 sel rd) imm = mk rd)
    (hexec : ∀ rd s, exec (mk rd) s = unaryForm f rd s) : UnaryRule sel mk f := by
  refine ⟨hword, fun rd s _ => ?_⟩
  rw [RaisesMisuse, hexec]
  split
  next hmisuse => exact unlessMisuse_bad _ _ (decide_eq_true hmisuse)
  next hallowed =>
    exact ⟨_, unlessMisuse_allowed _ _ ((s.isIp_eq_false_iff _).2 hallowed),
      s.setReg_advance_writesReg (regIx rd) _ 2 hallowed⟩

/-- Settles O21: both instructions are `unaryForm`. -/
theorem incAndDecComplete : Obligations.IncAndDecComplete :=
  ⟨unaryRule_of_unaryForm decodeWords_inc fun _ _ => rfl, unaryRule_of_unaryForm decodeWords_dec fun _ _ => rfl⟩

end Sys2Proof.Machine

/-! ### PUSH and POP (R153, R154) -/

namespace Sys2Proof.Machine

/-- The operand check of PUSH and POP (R24, R25). -/
theorem State.isIp_or_isSp_iff (s : State) (i : RegIx) :
    (s.isIp i || s.isSp i) = true ↔ i = s.params.regIp ∨ i = s.params.regSp := by
  simp [State.isIp, State.isSp]

theorem State.isIp_or_isSp_eq_false {s : State} {i : RegIx} (h : ¬(i = s.params.regIp ∨ i = s.params.regSp)) :
    (s.isIp i || s.isSp i) = false :=
  Bool.eq_false_iff.2 (mt (s.isIp_or_isSp_iff i).1 h)

/-- PUSH of the value `v`: the state it completes in. -/
def State.pushWord (s : State) (v : Word) : State := ((s.setSp (s.sp - 2)).memWrite (s.sp - 2) v).advance 2

/-- POP into register `d`: the state it completes in. -/
def State.popInto (s : State) (d : RegIx) : State := ((s.setSp (s.sp + 2)).setReg d (s.memRead s.sp)).advance 2

theorem exec_push_of_allowed {rd : RegField} {s : State}
    (h : ¬(regIx rd = s.params.regIp ∨ regIx rd = s.params.regSp)) :
    exec (.push rd) s = .next (s.pushWord (s.reg (regIx rd))) :=
  unlessMisuse_allowed _ _ (State.isIp_or_isSp_eq_false h)

theorem exec_pop_of_allowed {rd : RegField} {s : State}
    (h : ¬(regIx rd = s.params.regIp ∨ regIx rd = s.params.regSp)) :
    exec (.pop rd) s = .next (s.popInto (regIx rd)) :=
  unlessMisuse_allowed _ _ (State.isIp_or_isSp_eq_false h)

theorem State.reg_pushWord (s : State) (v : Word) (j : RegIx) (hsp : s.params.regIp ≠ s.params.regSp) :
    (s.pushWord v).reg j =
      if j = s.params.regIp then s.ip + 2 else if j = s.params.regSp then s.sp - 2 else s.reg j := by
  simp [State.pushWord, State.reg_advance, State.reg_setSp, State.ip_setSp, hsp]

theorem State.reg_popInto (s : State) {d : RegIx} (j : RegIx) (hd : d ≠ s.params.regIp)
    (hsp : s.params.regIp ≠ s.params.regSp) :
    (s.popInto d).reg j =
      if j = s.params.regIp then s.ip + 2 else if j = d then s.memRead s.sp
      else if j = s.params.regSp then s.sp + 2 else s.reg j := by
  simp [State.popInto, State.reg_advance, State.reg_setReg, State.reg_setSp, State.ip_setReg, State.ip_setSp, hsp,
    hd.symm]

/-- Moving SP and IP touches neither memory nor the events, so PUSH stores what the write path stores. -/
theorem State.pushWord_storesWord (s : State) (v : Word) (hwf : Mem.wf s.mem = true) :
    StoresWord s (s.pushWord v) (s.sp - 2) v :=
  (s.setSp (s.sp - 2)).memWrite_storesWord (s.sp - 2) v hwf

@[simp] theorem State.pushWord_params (s : State) (v : Word) : (s.pushWord v).params = s.params := by
  simp [State.pushWord]

theorem State.pushWord_continues (s : State) (v : Word) : Continues s (s.pushWord v) := by
  simp [Continues, State.pushWord]

@[simp] theorem State.popInto_params (s : State) (d : RegIx) : (s.popInto d).params = s.params := rfl

/-- POP writes registers and the step's result only. -/
theorem State.popInto_continues (s : State) (d : RegIx) : Continues s (s.popInto d) := ⟨rfl, rfl, rfl⟩

/-- Settles O22: the registers by `State.reg_pushWord`, memory and the events by `State.pushWord_storesWord`. -/
theorem pushCompletes : Obligations.PushCompletes := by
  refine ⟨decodeWords_push, fun rd s hadm hwf => ?_⟩
  obtain ⟨-, -, -, hsp, -⟩ := hadm
  split
  next hmisuse => exact unlessMisuse_bad _ _ ((s.isIp_or_isSp_iff _).2 hmisuse)
  next hallowed =>
    have hreg := fun j => s.reg_pushWord (s.reg (regIx rd)) j hsp.symm
    refine ⟨_, exec_push_of_allowed hallowed, ?_, ?_, fun j hj => ?_, s.pushWord_storesWord _ hwf,
      s.pushWord_continues _⟩
    · simp [State.sp, hreg, hsp]
    · simp [State.ip, hreg]
    · simp only [List.mem_cons, List.not_mem_nil, or_false, not_or] at hj
      simp [hreg, hj]

/-- Settles O23: the registers by `State.reg_popInto`; no part of POP touches memory, the events or the status. -/
theorem popCompletes : Obligations.PopCompletes := by
  refine ⟨decodeWords_pop, fun rd s hadm => ?_⟩
  obtain ⟨-, -, -, hsp, -⟩ := hadm
  split
  next hmisuse => exact unlessMisuse_bad _ _ ((s.isIp_or_isSp_iff _).2 hmisuse)
  next hallowed =>
    obtain ⟨hrdIp, hrdSp⟩ := not_or.1 hallowed
    have hreg := fun j => s.reg_popInto j hrdIp hsp.symm
    refine ⟨_, exec_pop_of_allowed hallowed, ?_, ?_, ?_, fun j hj => ?_, fun _ => rfl, rfl,
      s.popInto_continues _⟩
    · simp [hreg, hrdIp]
    · simp [State.sp, hreg, hsp, Ne.symm hrdSp]
    · simp [State.ip, hreg]
    · simp only [List.mem_cons, List.not_mem_nil, or_false, not_or] at hj
      simp [hreg, hj]

end Sys2Proof.Machine

/-! ### The ALU, one equation per operation (R203 to R214) -/

namespace Sys2Proof.Machine

section
variable (a b f : Word)

@[simp] theorem alu_add : alu 1 a b f = aluResult (a + b) (decide (2 ^ 16 ≤ a.toNat + b.toNat)) := rfl
@[simp] theorem alu_sub : alu 2 a b f = aluResult (a - b) (decide (a.toNat < b.toNat)) := rfl
@[simp] theorem alu_or : alu 3 a b f = aluResult (a ||| b) false := rfl
@[simp] theorem alu_nor : alu 4 a b f = aluResult (~~~(a ||| b)) false := rfl
@[simp] theorem alu_and : alu 5 a b f = aluResult (a &&& b) false := rfl
@[simp] theorem alu_nand : alu 6 a b f = aluResult (~~~(a &&& b)) false := rfl
@[simp] theorem alu_xor : alu 7 a b f = aluResult (a ^^^ b) false := rfl
@[simp] theorem alu_xnor : alu 8 a b f = aluResult (~~~(a ^^^ b)) false := rfl
@[simp] theorem alu_adc : alu 9 a b f =
    aluResult (a + carryIn f + b) (decide (2 ^ 16 ≤ (a + carryIn f).toNat + b.toNat)) := rfl
@[simp] theorem alu_sbb : alu 10 a b f =
    aluResult (a - carryIn f - b) (decide ((a - carryIn f).toNat < b.toNat)) := rfl
@[simp] theorem alu_cmp : alu 11 a b f = ⟨a, flagWord (a - b) (decide (a.toNat < b.toNat))⟩ := rfl

/-- R201 for every known operation but COMPARE: one raw result, which is the result, and one carry. -/
theorem alu_eq_aluResult {op : BitVec 4} (hlo : 1 ≤ op.toNat) (hhi : op.toNat ≤ 10) :
    ∃ c cf, alu op a b f = aluResult c cf := by
  unfold alu
  interval_cases op.toNat <;> exact ⟨_, _, rfl⟩

theorem alu_of_unknown {op : BitVec 4} (h : op.toNat = 0 ∨ 12 ≤ op.toNat) : alu op a b f = ⟨0, 0x0040⟩ := by
  unfold alu
  split
  case h_12 => rfl
  all_goals omega

end

/-- Settles O12: the equations of the five operations, and the two corners as computed. -/
theorem aluArithmetic : Obligations.AluArithmetic :=
  ⟨fun a b f => ⟨alu_add a b f, alu_sub a b f, alu_adc a b f, alu_sbb a b f, alu_cmp a b f⟩, rfl, rfl⟩

end Sys2Proof.Machine

/-! ### The bits of the flags word (R201, R202) -/

namespace Sys2Proof.Machine

/-- The flags word is a function of three bits: whether the raw result is 0, its bit 15, and the carry. -/
theorem flagWord_spec (c : Word) (cf : Bool) :
    flagZ (flagWord c cf) = decide (c = 0#16) ∧ flagS (flagWord c cf) = c.getLsbD 15 ∧
    flagO (flagWord c cf) = (!cf && c.getLsbD 15) ∧ flagC (flagWord c cf) = cf ∧ (flagWord c cf).toNat < 2 ^ 4 := by
  unfold flagWord
  generalize c.getLsbD 15 = s
  by_cases hz : c = 0#16 <;> simp only [hz, if_true, if_false] <;> revert cf s <;> decide

theorem getLsbD_flagWord_of_four_le (c : Word) (cf : Bool) {i : Nat} (hi : 4 ≤ i) :
    (flagWord c cf).getLsbD i = false := by
  obtain ⟨-, -, -, -, hlt⟩ := flagWord_spec c cf
  exact Nat.testBit_lt_two_pow (hlt.trans_le (Nat.pow_le_pow_right two_pos hi))

/-- Settles O15: COMPARE's raw result is the difference, every other known operation's is its result. -/
theorem knownOperationFlags : Obligations.KnownOperationFlags := by
  intro op a b f hlo hhi
  by_cases hcmp : op = 11
  · subst hcmp
    obtain ⟨hz, hs, ho, hc, -⟩ := flagWord_spec (a - b) (decide (a.toNat < b.toNat))
    exact ⟨_, _, hz, hs, ho, hc, fun _ => getLsbD_flagWord_of_four_le _ _, absurd rfl, fun _ => rfl⟩
  · have hne : op.toNat ≠ 11 := fun h => hcmp (BitVec.eq_of_toNat_eq h)
    obtain ⟨c, cf, halu⟩ := alu_eq_aluResult a b f hlo (by omega : op.toNat ≤ 10)
    obtain ⟨hz, hs, ho, hc, -⟩ := flagWord_spec c cf
    rw [halu]
    exact ⟨c, cf, hz, hs, ho, hc, fun _ => getLsbD_flagWord_of_four_le _ _, fun _ => rfl, fun h => absurd h hcmp⟩

end Sys2Proof.Machine

/-! ### The words of the 2-operand instructions (R105, R107) -/

namespace Sys2Proof

theorem decodeWords_ofNibbles_aluReg {op : BitVec 4} (rd rs : BitVec 4) (imm : Word) (hop : op ≠ 0#4) :
    decodeWords (ofNibbles 0 op rd rs) imm = decodeAluReg (ofNibbles 0 op rd rs) :=
  decodeWords_aluReg (nib3_ofNibbles ..) (by rwa [nib2_ofNibbles])

theorem decodeWords_ofNibbles_aluImm (op rd imm4 : BitVec 4) (imm : Word) :
    decodeWords (ofNibbles 2 op rd imm4) imm = decodeAluImm (ofNibbles 2 op rd imm4) :=
  decodeWords_aluImm (congrArg BitVec.toNat (nib3_ofNibbles ..))

theorem decodeAluReg_of_unknown {w : Word} (h : 12 ≤ (nib2 w).toNat) :
    decodeAluReg w = .aluN (w.extractLsb' 8 2) (nib1 w) (nib0 w) := by
  unfold decodeAluReg
  split
  case h_12 => rfl
  all_goals omega

theorem decodeAluImm_of_unknown {w : Word} (h : 12 ≤ (nib2 w).toNat) :
    decodeAluImm w = .aluIN (w.extractLsb' 8 2) (nib1 w) (nib0 w) := by
  unfold decodeAluImm
  split
  case h_13 => rfl
  all_goals omega

/-- The ALU op of ALU.n and ALUI.n, `11nn`, as a number. -/
theorem toNat_unknownOp (n : BitVec 2) : (3#2 ++ n : BitVec 4).toNat = 12 + n.toNat := by
  revert n; decide

theorem twelve_le_unknownOp (n : BitVec 2) : 12 ≤ (3#2 ++ n : BitVec 4).toNat :=
  Nat.le.intro (toNat_unknownOp n).symm

theorem extractLsb'_ofNibbles_unknownOp (top n1 n0 : BitVec 4) (n : BitVec 2) :
    (ofNibbles top (3#2 ++ n) n1 n0).extractLsb' 8 2 = n := by
  apply BitVec.eq_of_toNat_eq
  rw [BitVec.extractLsb'_toNat, toNat_ofNibbles, toNat_unknownOp, Nat.shiftRight_eq_div_pow]
  omega

theorem decodeAluReg_ofNibbles_aluN (n : BitVec 2) (rd rs : BitVec 4) :
    decodeAluReg (ofNibbles 0 (3#2 ++ n) rd rs) = .aluN n rd rs := by
  rw [decodeAluReg_of_unknown (by rw [nib2_ofNibbles]; exact twelve_le_unknownOp n), extractLsb'_ofNibbles_unknownOp,
    nib1_ofNibbles, nib0_ofNibbles]

theorem decodeAluImm_ofNibbles_aluIN (n : BitVec 2) (rd imm4 : BitVec 4) :
    decodeAluImm (ofNibbles 2 (3#2 ++ n) rd imm4) = .aluIN n rd imm4 := by
  rw [decodeAluImm_of_unknown (by rw [nib2_ofNibbles]; exact twelve_le_unknownOp n), extractLsb'_ofNibbles_unknownOp,
    nib1_ofNibbles, nib0_ofNibbles]

end Sys2Proof

/-! ### The 2-operand forms (R215, R216) -/

namespace Sys2Proof.Machine

/-- The forms use `op` through `alu` alone, which does not tell the unknown operations apart. -/
theorem regForm_congr_unknown {op op' : BitVec 4} (h : 12 ≤ op.toNat) (h' : 12 ≤ op'.toNat) :
    regForm op = regForm op' := by
  funext rd rs s
  rw [regForm, regForm, alu_of_unknown _ _ _ (.inr h), alu_of_unknown _ _ _ (.inr h')]

theorem immForm_congr_unknown {op op' : BitVec 4} (h : 12 ≤ op.toNat) (h' : 12 ≤ op'.toNat) :
    immForm op = immForm op' := by
  funext rd imm4 s
  rw [immForm, immForm, alu_of_unknown _ _ _ (.inr h), alu_of_unknown _ _ _ (.inr h')]

/-- Every 2-operand register instruction does what the form says for the op, rd and rs of its word. -/
theorem exec_decodeAluReg {w : Word} (hop : nib2 w ≠ 0#4) (s : State) :
    exec (decodeAluReg w) s = regForm (nib2 w) (nib1 w) (nib0 w) s := by
  obtain hknown | hunknown := lt_or_ge (nib2 w).toNat 12
  · have hpos : 0 < (nib2 w).toNat := Nat.pos_of_ne_zero fun h => hop (BitVec.eq_of_toNat_eq h)
    unfold decodeAluReg regForm alu
    interval_cases (nib2 w).toNat <;> rfl
  · rw [decodeAluReg_of_unknown hunknown]
    exact congrFun₃ (regForm_congr_unknown (twelve_le_unknownOp _) hunknown) _ _ s

/-- Every 2-operand immediate instruction likewise. -/
theorem exec_decodeAluImm (w : Word) (s : State) :
    exec (decodeAluImm w) s = immForm (nib2 w) (nib1 w) (nib0 w) s := by
  obtain hknown | hunknown := lt_or_ge (nib2 w).toNat 12
  · unfold decodeAluImm immForm alu
    interval_cases (nib2 w).toNat <;> rfl
  · rw [decodeAluImm_of_unknown hunknown]
    exact congrFun₃ (immForm_congr_unknown (twelve_le_unknownOp _) hunknown) _ _ s

/-- The operand check of the register form (R24, R26). -/
theorem State.regForm_misuse_iff (s : State) (d r : RegIx) :
    (s.isIp d || s.isIp r || s.isFl d) = true ↔
      d = s.params.regIp ∨ r = s.params.regIp ∨ d = s.params.regFl := by
  simp [State.isIp, State.isFl, or_assoc]

/-- The operand check of the immediate form. -/
theorem State.immForm_misuse_iff (s : State) (d : RegIx) :
    (s.isIp d || s.isFl d) = true ↔ d = s.params.regIp ∨ d = s.params.regFl := by
  simp [State.isIp, State.isFl]

/-- An instruction that is the write-back behind a check, where the check keeps the destination off IP and FL: it
raises, or it writes the destination, FL and IP. -/
theorem misuse_or_writesAlu {i : Instr} {s : State} {bad : Bool} {d : RegIx} {out : AluOut} {misuse : Prop}
    [Decidable misuse] (hadm : s.params.Admissible) (hexec : exec i s = unlessMisuse bad s (s.writeAlu d out))
    (hbad : bad = true ↔ misuse) (hdest : ¬misuse → d ≠ s.params.regIp ∧ d ≠ s.params.regFl) :
    if misuse then RaisesMisuse i s else ∃ t, exec i s = .next t ∧ WritesAlu s t d out.res out.flags := by
  rw [RaisesMisuse, hexec]
  split
  next hmisuse => exact unlessMisuse_bad _ _ (hbad.2 hmisuse)
  next hallowed =>
    obtain ⟨-, -, -, -, -, hipfl, -⟩ := hadm
    obtain ⟨hip, hfl⟩ := hdest hallowed
    exact ⟨_, unlessMisuse_allowed _ _ (Bool.eq_false_iff.2 (mt hbad.1 hallowed)),
      s.writeAlu_writesAlu d out hipfl hip hfl⟩

section
variable {op : BitVec 4} {res flags : Word → Word → Word → Word}

/-- The instructions decoded from an ALU op other than 0 in register form obey R215, with what `alu` gives for it. -/
theorem regFormRule_of_decode {mk : RegField → RegField → Instr} (hop : op ≠ 0#4)
    (hword : ∀ rd rs, decodeAluReg (ofNibbles 0 op rd rs) = mk rd rs)
    (halu : ∀ a b f, alu op a b f = ⟨res a b f, flags a b f⟩) : RegFormRule op mk res flags := by
  refine ⟨fun rd rs imm => (decodeWords_ofNibbles_aluReg rd rs imm hop).trans (hword rd rs), fun rd rs s hadm => ?_⟩
  have hexec : exec (mk rd rs) s = regForm op rd rs s := by
    rw [← hword, exec_decodeAluReg (by rwa [nib2_ofNibbles]), nib2_ofNibbles, nib1_ofNibbles, nib0_ofNibbles]
  rw [regForm, halu] at hexec
  exact misuse_or_writesAlu hadm hexec (s.regForm_misuse_iff _ _) fun h =>
    ⟨fun hip => h (.inl hip), fun hfl => h (.inr (.inr hfl))⟩

/-- The same for every ALU op in immediate form (R216). -/
theorem immFormRule_of_decode {mk : RegField → BitVec 4 → Instr}
    (hword : ∀ rd imm4, decodeAluImm (ofNibbles 2 op rd imm4) = mk rd imm4)
    (halu : ∀ a b f, alu op a b f = ⟨res a b f, flags a b f⟩) : ImmFormRule op mk res flags := by
  refine ⟨fun rd imm4 imm => (decodeWords_ofNibbles_aluImm op rd imm4 imm).trans (hword rd imm4),
    fun rd imm4 s hadm => ?_⟩
  have hexec : exec (mk rd imm4) s = immForm op rd imm4 s := by
    rw [← hword, exec_decodeAluImm, nib2_ofNibbles, nib1_ofNibbles, nib0_ofNibbles]
  rw [immForm, halu] at hexec
  exact misuse_or_writesAlu hadm hexec (s.immForm_misuse_iff _) not_or.1

/-- An ALU op other than 0 in both forms: what the ALU computes is argued once. -/
theorem formRules_of_decode {mkReg : RegField → RegField → Instr} {mkImm : RegField → BitVec 4 → Instr}
    (hop : op ≠ 0#4) (hreg : ∀ rd rs, decodeAluReg (ofNibbles 0 op rd rs) = mkReg rd rs)
    (himm : ∀ rd imm4, decodeAluImm (ofNibbles 2 op rd imm4) = mkImm rd imm4)
    (halu : ∀ a b f, alu op a b f = ⟨res a b f, flags a b f⟩) :
    RegFormRule op mkReg res flags ∧ ImmFormRule op mkImm res flags :=
  ⟨regFormRule_of_decode hop hreg halu, immFormRule_of_decode himm halu⟩

end

end Sys2Proof.Machine

/-! ### The 2-operand instructions (R217 to R240) -/

namespace Sys2Proof.Machine

/-- Settles O24: the two forms of the ops 1 and 2. -/
theorem addAndSubComplete : Obligations.AddAndSubComplete :=
  and_assoc.1
    ⟨formRules_of_decode (by decide) (by simp [decodeAluReg]) (by simp [decodeAluImm]) alu_add,
     formRules_of_decode (by decide) (by simp [decodeAluReg]) (by simp [decodeAluImm]) alu_sub⟩

/-- Settles O25: the two forms of each of the ops 3 to 8. -/
theorem bitwiseComplete : Obligations.BitwiseComplete :=
  ⟨formRules_of_decode (by decide) (by simp [decodeAluReg]) (by simp [decodeAluImm]) alu_or,
   formRules_of_decode (by decide) (by simp [decodeAluReg]) (by simp [decodeAluImm]) alu_nor,
   formRules_of_decode (by decide) (by simp [decodeAluReg]) (by simp [decodeAluImm]) alu_and,
   formRules_of_decode (by decide) (by simp [decodeAluReg]) (by simp [decodeAluImm]) alu_nand,
   formRules_of_decode (by decide) (by simp [decodeAluReg]) (by simp [decodeAluImm]) alu_xor,
   formRules_of_decode (by decide) (by simp [decodeAluReg]) (by simp [decodeAluImm]) alu_xnor⟩

/-- Settles O26: the two forms of the ops 9 and 10; the incoming carry is `carryIn`. -/
theorem adcAndSbbComplete : Obligations.AdcAndSbbComplete :=
  and_assoc.1
    ⟨formRules_of_decode (by decide) (by simp [decodeAluReg]) (by simp [decodeAluImm]) alu_adc,
     formRules_of_decode (by decide) (by simp [decodeAluReg]) (by simp [decodeAluImm]) alu_sbb⟩

/-- Settles O27: the two forms of the op 11, whose result is its first operand. -/
theorem compareCompletes : Obligations.CompareCompletes :=
  formRules_of_decode (by decide) (by simp [decodeAluReg]) (by simp [decodeAluImm]) alu_cmp

/-- Settles O28: the ALU knows none of the ops 0 and 12 to 15; op 0 is no register form. -/
theorem unknownAluFormsComplete : Obligations.UnknownAluFormsComplete := by
  have halu (n : BitVec 2) (a b f : Word) : alu (3#2 ++ n) a b f = ⟨0, 0x0040⟩ :=
    alu_of_unknown a b f (.inr (twelve_le_unknownOp n))
  have hop (n : BitVec 2) : 3#2 ++ n ≠ 0#4 := by revert n; decide
  have hzero (a b f : Word) : alu 0 a b f = ⟨0, 0x0040⟩ := alu_of_unknown a b f (.inl rfl)
  exact ⟨fun n => regFormRule_of_decode (hop n) (decodeAluReg_ofNibbles_aluN n) (halu n),
    immFormRule_of_decode (by simp [decodeAluImm]) hzero,
    fun n => immFormRule_of_decode (decodeAluImm_ofNibbles_aluIN n) (halu n)⟩

end Sys2Proof.Machine

/-! ### The conditions (R261) -/

namespace Sys2Proof.Machine

/-- Settles O18: a row is the clause of `condHolds` for the condition that `condOfBits` gives its cond value, condition 8
as the source writes it. -/
theorem conditionTable : Obligations.ConditionTable :=
  fun _ => ⟨rfl, rfl, rfl, rfl, rfl, rfl, rfl, rfl, rfl, rfl, rfl, rfl, rfl, rfl, rfl, rfl⟩

end Sys2Proof.Machine

/-! ### The words of the jumps (R106, R108) -/

namespace Sys2Proof

theorem toNat_append_nibbles (a b : BitVec 4) : (a ++ b : Byte).toNat = a.toNat * 16 + b.toNat := by
  show (a ++ b : BitVec (4 + 4)).toNat = _
  rw [BitVec.toNat_append, ← Nat.shiftLeft_add_eq_or_of_lt b.isLt, Nat.shiftLeft_eq]

@[simp] theorem nib3_wordOf_append (a b : BitVec 4) (lo : Byte) : nib3 (wordOf (a ++ b) lo) = a := by
  apply BitVec.eq_of_toNat_eq
  rw [toNat_nib3, toNat_wordOf, toNat_append_nibbles]
  omega

@[simp] theorem nib2_wordOf_append (a b : BitVec 4) (lo : Byte) : nib2 (wordOf (a ++ b) lo) = b := by
  apply BitVec.eq_of_toNat_eq
  rw [toNat_nib2, toNat_wordOf, toNat_append_nibbles]
  omega

theorem decodeWords_ofNibbles_jump (c rd mode : BitVec 4) (imm : Word) :
    decodeWords (ofNibbles 1 c rd mode) imm = decodeJump (ofNibbles 1 c rd mode) imm :=
  decodeWords_jump (congrArg BitVec.toNat (nib3_ofNibbles ..))

theorem decodeWords_jmpReg (c rd : BitVec 4) (imm : Word) :
    decodeWords (ofNibbles 1 c rd 0) imm = .jmpReg (condOfBits c) rd := by
  rw [decodeWords_ofNibbles_jump]
  simp [decodeJump]

theorem decodeWords_jmpImm (c ign : BitVec 4) (imm : Word) :
    decodeWords (ofNibbles 1 c ign 2) imm = .jmpImm (condOfBits c) ign imm := by
  rw [decodeWords_ofNibbles_jump]
  simp [decodeJump]

theorem decodeWords_wordOf_jr (c : BitVec 4) (off8 : Byte) (imm : Word) :
    decodeWords (wordOf (3#4 ++ c) off8) imm = .jr (condOfBits c) off8 := by
  rw [decodeWords_jr (congrArg BitVec.toNat (nib3_wordOf_append ..)), nib2_wordOf_append, lowByte_wordOf]

/-- An immediate that decoding reads is the word after the first. -/
theorem eq_of_immWord_decodeWords {w imm v : Word} (h : immWord (decodeWords w imm) = some v) : v = imm := by
  rw [immWord_decodeWords, Option.ite_none_right_eq_some] at h
  obtain ⟨-, himm⟩ := h
  exact (Option.some.inj himm).symm

end Sys2Proof

/-! ### The jumps (R262, R264, R265) -/

namespace Sys2Proof.Machine

/-- An instruction that is a jump behind the check of the register its target comes from: it raises where that register
is IP (R24), and else moves IP alone. -/
theorem misuse_or_movesIp {i : Instr} {s : State} {d : RegIx} {cc : Cond} {target n : Word}
    (hexec : exec i s = unlessMisuse (s.isIp d) s (s.jump cc target n)) :
    if d = s.params.regIp then RaisesMisuse i s
    else ∃ t, exec i s = .next t ∧ MovesIp s t (if condHolds cc s.fl then target else s.ip + n) := by
  rw [RaisesMisuse, hexec]
  split
  next hmisuse => exact unlessMisuse_bad _ _ (decide_eq_true hmisuse)
  next hallowed =>
    exact ⟨_, unlessMisuse_allowed _ _ ((s.isIp_eq_false_iff d).2 hallowed), s.jump_movesIp cc target n⟩

/-- Settles O29: JMP.cc rd is the checked jump to the value of rd. -/
theorem jumpRegisterCompletes : Obligations.JumpRegisterCompletes :=
  ⟨decodeWords_jmpReg, fun _ _ _ _ => misuse_or_movesIp rfl⟩

/-- Settles O31: both are jumps without a check, of 4 bytes and of 2; the immediate by
`eq_of_immWord_decodeWords`. -/
theorem jumpImmediateAndRelativeComplete : Obligations.JumpImmediateAndRelativeComplete := by
  refine ⟨decodeWords_jmpImm, decodeWords_wordOf_jr, fun cc ign imm16 s => ?_, fun cc off8 s => ?_,
    fun s cc ign imm16 hdec => ?_⟩
  · exact ⟨_, rfl, s.jump_movesIp cc imm16 4⟩
  · exact ⟨_, rfl, s.jump_movesIp cc (s.ip + 2 + sext8 off8) 2⟩
  · have himm : immWord (decodeWords s.fetchWord s.fetchImm) = some imm16 := congrArg immWord hdec
    exact eq_of_immWord_decodeWords himm

end Sys2Proof.Machine

/-! ### The words of the loads, the store and the move (R109 to R112) -/

namespace Sys2Proof

theorem decodeWords_ofNibbles_ld (rd rs ro : BitVec 4) (imm : Word) :
    decodeWords (ofNibbles 4 rd rs ro) imm = .ld rd rs ro := by
  rw [decodeWords_ld (congrArg BitVec.toNat (nib3_ofNibbles ..)), nib2_ofNibbles, nib1_ofNibbles, nib0_ofNibbles]

theorem decodeWords_ofNibbles_st (rd rs ro : BitVec 4) (imm : Word) :
    decodeWords (ofNibbles 5 rd rs ro) imm = .st rd rs ro := by
  rw [decodeWords_st (congrArg BitVec.toNat (nib3_ofNibbles ..)), nib2_ofNibbles, nib1_ofNibbles, nib0_ofNibbles]

theorem decodeWords_wordOf_ldi (rd : BitVec 4) (imm8 : Byte) (imm : Word) :
    decodeWords (wordOf (8#4 ++ rd) imm8) imm = .ldi rd imm8 := by
  rw [decodeWords_ldi (congrArg BitVec.toNat (nib3_wordOf_append ..)), nib2_wordOf_append, lowByte_wordOf]

theorem decodeWords_wordOf_ldw (rd : BitVec 4) (ign : Byte) (imm : Word) :
    decodeWords (wordOf (9#4 ++ rd) ign) imm = .ldw rd ign imm := by
  rw [decodeWords_ldw (congrArg BitVec.toNat (nib3_wordOf_append ..)), nib2_wordOf_append, lowByte_wordOf]

/-- The two bank fields of MOVX, side by side in the lowest nibble. -/
theorem toNat_append_banks (bd bs : BitVec 2) : (bd ++ bs : BitVec 4).toNat = bd.toNat * 4 + bs.toNat := by
  revert bd bs; decide

theorem extractLsb'_ofNibbles_bankDest (n3 n2 n1 : BitVec 4) (bd bs : BitVec 2) :
    (ofNibbles n3 n2 n1 (bd ++ bs)).extractLsb' 2 2 = bd := by
  apply BitVec.eq_of_toNat_eq
  rw [BitVec.extractLsb'_toNat, toNat_ofNibbles, toNat_append_banks, Nat.shiftRight_eq_div_pow]
  omega

theorem extractLsb'_ofNibbles_bankSrc (n3 n2 n1 : BitVec 4) (bd bs : BitVec 2) :
    (ofNibbles n3 n2 n1 (bd ++ bs)).extractLsb' 0 2 = bs := by
  apply BitVec.eq_of_toNat_eq
  rw [BitVec.extractLsb'_toNat, toNat_ofNibbles, toNat_append_banks, Nat.shiftRight_zero]
  omega

theorem decodeWords_ofNibbles_movx (rd rs : BitVec 4) (bd bs : BitVec 2) (imm : Word) :
    decodeWords (ofNibbles 11 rd rs (bd ++ bs)) imm = .movx rd rs bd bs := by
  rw [decodeWords_movx (congrArg BitVec.toNat (nib3_ofNibbles ..)), nib2_ofNibbles, nib1_ofNibbles,
    extractLsb'_ofNibbles_bankDest, extractLsb'_ofNibbles_bankSrc]

end Sys2Proof

/-! ### The loads, the store and the move (R300 to R304) -/

namespace Sys2Proof.Machine

@[simp] theorem State.isIp_eq_true_iff (s : State) (i : RegIx) : s.isIp i = true ↔ i = s.params.regIp :=
  decide_eq_true_iff

/-- An instruction behind the check of R357 raises where the check fails, and else completes with whatever holds of the
state given. -/
theorem misuse_or_completes {i : Instr} {s t : State} {bad : Bool} {misuse : Prop} [Decidable misuse]
    {post : State → Prop} (hexec : exec i s = unlessMisuse bad s t) (hbad : bad = true ↔ misuse)
    (hpost : ¬misuse → post t) :
    if misuse then RaisesMisuse i s else ∃ t, exec i s = .next t ∧ post t := by
  rw [RaisesMisuse, hexec]
  split
  next hmisuse => exact unlessMisuse_bad _ _ (hbad.2 hmisuse)
  next hallowed =>
    exact ⟨t, unlessMisuse_allowed _ _ (Bool.eq_false_iff.2 (mt hbad.1 hallowed)), hpost hallowed⟩

/-- A register write behind a check that keeps its destination off IP. -/
theorem misuse_or_writesReg {i : Instr} {s : State} {bad : Bool} {d : RegIx} {v n : Word} {misuse : Prop}
    [Decidable misuse] (hexec : exec i s = unlessMisuse bad s ((s.setReg d v).advance n))
    (hbad : bad = true ↔ misuse) (hdest : ¬misuse → d ≠ s.params.regIp) :
    if misuse then RaisesMisuse i s else ∃ t, exec i s = .next t ∧ WritesReg s t d v (s.ip + n) :=
  misuse_or_completes hexec hbad fun hallowed => s.setReg_advance_writesReg d v n (hdest hallowed)

/-- The operand check of LD and ST (R24). -/
theorem State.isIp_or_isIp_or_isIp_iff (s : State) (i j k : RegIx) :
    (s.isIp i || s.isIp j || s.isIp k) = true ↔
      i = s.params.regIp ∨ j = s.params.regIp ∨ k = s.params.regIp := by
  simp [or_assoc]

/-- The operand check of MOVX, over the effective indices. -/
theorem State.isIp_or_isIp_iff (s : State) (i j : RegIx) :
    (s.isIp i || s.isIp j) = true ↔ i = s.params.regIp ∨ j = s.params.regIp := by
  simp

/-- Settles O32: LD is the checked write of the loaded word to rd. -/
theorem loadIndexedCompletes : Obligations.LoadIndexedCompletes :=
  ⟨decodeWords_ofNibbles_ld, fun _ _ _ s _ =>
    misuse_or_writesReg rfl (s.isIp_or_isIp_or_isIp_iff _ _ _) fun hallowed => (not_or.1 hallowed).1⟩

/-- A step past a store moves no register but IP; memory and the events are those of the write path. -/
theorem State.memWrite_advance_spec (s : State) (a v n : Word) (hwf : Mem.wf s.mem = true) :
    ((s.memWrite a v).advance n).ip = s.ip + n ∧
      SameRegsBut [s.params.regIp] s ((s.memWrite a v).advance n) ∧
      StoresWord s ((s.memWrite a v).advance n) a v ∧ Continues s ((s.memWrite a v).advance n) := by
  refine ⟨by simp, fun j hj => ?_, s.memWrite_storesWord a v hwf, by simp [Continues]⟩
  simp [State.reg_advance, List.ne_of_not_mem_cons hj]

/-- Settles O33: ST is the checked write path, with the frame of `State.memWrite_advance_spec`. -/
theorem storeIndexedCompletes : Obligations.StoreIndexedCompletes :=
  ⟨decodeWords_ofNibbles_st, fun rd rs ro s _ hwf =>
    misuse_or_completes rfl (s.isIp_or_isIp_or_isIp_iff _ _ _) fun _ =>
      s.memWrite_advance_spec (s.reg (regIx rd) + s.reg (regIx ro)) (s.reg (regIx rs)) 2 hwf⟩

/-- Settles O34: both are checked register writes, of 2 bytes and of 4; the immediate by
`eq_of_immWord_decodeWords`. -/
theorem loadImmediateCompletes : Obligations.LoadImmediateCompletes := by
  refine ⟨decodeWords_wordOf_ldi, decodeWords_wordOf_ldw, fun rd imm8 s _ => ?_, fun rd ign imm16 s _ => ?_,
    fun s rd ign imm16 hdec => ?_⟩
  · exact misuse_or_writesReg rfl (s.isIp_eq_true_iff _) id
  · exact misuse_or_writesReg rfl (s.isIp_eq_true_iff _) id
  · have himm : immWord (decodeWords s.fetchWord s.fetchImm) = some imm16 := congrArg immWord hdec
    exact eq_of_immWord_decodeWords himm

/-- Every register is `field + 16 × bank` for the remainder and the quotient of its index by 16. -/
theorem exists_bankIx_eq (i : RegIx) : ∃ f b, bankIx f b = i := by
  refine ⟨BitVec.ofNat 4 (i.val % 16), BitVec.ofNat 2 (i.val / 16), Fin.ext ?_⟩
  simp only [bankIx, BitVec.toNat_ofNat]
  omega

/-- Settles O35: MOVX is the checked write of one effective register to another. -/
theorem extendedMoveCompletes : Obligations.ExtendedMoveCompletes := by
  refine ⟨decodeWords_ofNibbles_movx, fun rd rs bd bs s _ => ?_, fun _ _ => rfl, exists_bankIx_eq⟩
  exact misuse_or_writesReg rfl (s.isIp_or_isIp_iff _ _) fun hallowed => (not_or.1 hallowed).1

end Sys2Proof.Machine

/-! ### The unsupported words (R116 to R118, R353) -/

namespace Sys2Proof

theorem toNat_nib3_eq_div (w : Word) : (nib3 w).toNat = w.toNat / 4096 := by
  have hlt := w.isLt
  rw [toNat_nib3]
  omega

theorem highByte_eq_zero_iff (w : Word) : highByte w = 0#8 ↔ nib3 w = 0#4 ∧ nib2 w = 0#4 := by
  simp only [← BitVec.toNat_inj, toNat_highByte, toNat_nib3_eq_div, toNat_nib2, BitVec.toNat_ofNat]
  omega

end Sys2Proof

namespace Sys2Proof.Machine

theorem unsupportedRow_decodeUnary (w : Word) :
    unsupportedRow (decodeUnary w) = true ↔ (nib1 w).toNat = 0 ∨ 7 ≤ (nib1 w).toNat := by
  have hlt := (nib1 w).isLt
  unfold decodeUnary
  interval_cases (nib1 w).toNat <;> simp [unsupportedRow]

theorem unsupportedRow_decodeAluReg (w : Word) : unsupportedRow (decodeAluReg w) = false := by
  unfold decodeAluReg
  split <;> rfl

theorem unsupportedRow_decodeJump (w imm : Word) :
    unsupportedRow (decodeJump w imm) = true ↔ 3 ≤ (nib0 w).toNat := by
  have hlt := (nib0 w).isLt
  unfold decodeJump
  interval_cases (nib0 w).toNat <;> simp [unsupportedRow]

theorem unsupportedRow_decodeAluImm (w : Word) : unsupportedRow (decodeAluImm w) = false := by
  unfold decodeAluImm
  split <;> rfl

/-- R353 by the nibbles of the word, its three clauses as propositions. -/
theorem unsupportedWord_iff_nibbles (w : Word) :
    unsupportedWord w = true ↔
      ((nib3 w).toNat = 6 ∨ (nib3 w).toNat = 7 ∨ (nib3 w).toNat = 10 ∨ 12 ≤ (nib3 w).toNat) ∨
      ((nib3 w = 0#4 ∧ nib2 w = 0#4) ∧ w ≠ 0#16 ∧ ((nib1 w).toNat = 0 ∨ 7 ≤ (nib1 w).toNat)) ∨
      ((nib3 w).toNat = 1 ∧ 3 ≤ (nib0 w).toNat) := by
  simp [unsupportedWord, highByte_eq_zero_iff, or_assoc, and_assoc]

/-- A word with a top nibble other than 0 is no 1-operand word: two clauses of R353 remain. -/
theorem unsupportedWord_iff_of_nib3_ne_zero {w : Word} (h : (nib3 w).toNat ≠ 0) :
    unsupportedWord w = true ↔
      ((nib3 w).toNat = 6 ∨ (nib3 w).toNat = 7 ∨ (nib3 w).toNat = 10 ∨ 12 ≤ (nib3 w).toNat) ∨
      ((nib3 w).toNat = 1 ∧ 3 ≤ (nib0 w).toNat) := by
  have hne : nib3 w ≠ 0#4 := fun h3 => h (congrArg BitVec.toNat h3)
  simp [unsupportedWord_iff_nibbles, hne]

/-- Under top nibble 0 stand HLT, the 1-operand and the register forms: only a selector can be unsupported. -/
theorem unsupportedRow_decodeWords_of_nib3_zero {w : Word} (imm : Word) (h3 : nib3 w = 0#4) :
    unsupportedRow (decodeWords w imm) = true ↔ unsupportedWord w = true := by
  by_cases hw : w = 0#16
  · rw [hw, decodeWords_halt]
    decide
  · by_cases h2 : nib2 w = 0#4
    · simp [decodeWords_unary hw h3 h2, unsupportedRow_decodeUnary, unsupportedWord_iff_nibbles, h3, h2, hw]
    · simp [decodeWords_aluReg h3 h2, unsupportedRow_decodeAluReg, unsupportedWord_iff_nibbles, h3, h2]

/-- The decoder gives a word an unsupported row exactly when R353 names the word. -/
theorem unsupportedRow_decodeWords (w imm : Word) :
    unsupportedRow (decodeWords w imm) = true ↔ unsupportedWord w = true := by
  match h : (nib3 w).toNat with
  | 0 => exact unsupportedRow_decodeWords_of_nib3_zero imm (BitVec.eq_of_toNat_eq h)
  | n + 1 =>
    rw [unsupportedWord_iff_of_nib3_ne_zero (by omega)]
    match n with
    | 0 => simp [decodeWords_jump h, unsupportedRow_decodeJump, h]
    | 1 => simp [decodeWords_aluImm h, unsupportedRow_decodeAluImm, h]
    | 2 => simp [decodeWords_jr h, unsupportedRow, h]
    | 3 => simp [decodeWords_ld h, unsupportedRow, h]
    | 4 => simp [decodeWords_st h, unsupportedRow, h]
    | 5 => simp [decodeWords_reserved6to7 (.inl h), unsupportedRow, h]
    | 6 => simp [decodeWords_reserved6to7 (.inr h), unsupportedRow, h]
    | 7 => simp [decodeWords_ldi h, unsupportedRow, h]
    | 8 => simp [decodeWords_ldw h, unsupportedRow, h]
    | 9 => simp [decodeWords_reservedA h, unsupportedRow, h]
    | 10 => simp [decodeWords_movx h, unsupportedRow, h]
    | m + 11 => simp [decodeWords_reservedCtoF (w := w) (by omega), unsupportedRow, h]

/-- R353 as arithmetic on the number of the word. -/
theorem unsupportedWord_iff_toNat (w : Word) :
    unsupportedWord w = true ↔
      (w.toNat / 4096 = 6 ∨ w.toNat / 4096 = 7 ∨ w.toNat / 4096 = 10 ∨ 12 ≤ w.toNat / 4096) ∨
      (w.toNat / 256 = 0 ∧ w ≠ 0#16 ∧ (w.toNat / 16 % 16 = 0 ∨ 7 ≤ w.toNat / 16 % 16)) ∨
      (w.toNat / 4096 = 1 ∧ 3 ≤ w.toNat % 16) := by
  have hbyte : w.toNat / 256 = 0 ↔ nib3 w = 0#4 ∧ nib2 w = 0#4 := by
    rw [← highByte_eq_zero_iff, ← BitVec.toNat_inj, toNat_highByte, BitVec.toNat_ofNat, Nat.zero_mod]
  rw [unsupportedWord_iff_nibbles, ← hbyte, toNat_nib3_eq_div, toNat_nib1, toNat_nib0]

end Sys2Proof.Machine

/-! ### Which instructions take UnsupportedInstruction (R353) -/

namespace Sys2Proof.Machine

/-- An unsupported row has one meaning, the failure. -/
theorem exec_of_unsupportedRow {i : Instr} (s : State) (hi : unsupportedRow i = true) :
    exec i s = .next (s.raise .unsupportedInstruction) := by
  cases i with
  | unsupSel0 | unsupSel7 | unsupSel8to15 | unsupMode3 | unsupMode4to7 | unsupMode8to15 | reserved6to7 | reservedA
  | reservedCtoF => rfl
  | _ => cases hi

/-- The check of R357 before a next state that keeps the status: the failure is misuse, or there is none. -/
theorem unlessMisuse_next_status {bad : Bool} {s t u : State} (h : unlessMisuse bad s t = .next u)
    (ht : t.status = s.status) : u.status = s.status ∨ u = s.raise .reservedRegisterMisuse := by
  obtain ⟨-, rfl⟩ | ⟨-, rfl⟩ := unlessMisuse_next h
  · exact .inr rfl
  · exact .inl ht

/-- A supported instruction has no failure but misuse. -/
theorem exec_status_of_supported {i : Instr} {s t : State} (hi : unsupportedRow i = false)
    (h : exec i s = .next t) : t.status = s.status ∨ t = s.raise .reservedRegisterMisuse := by
  cases i with
  | unsupSel0 | unsupSel7 | unsupSel8to15 | unsupMode3 | unsupMode4to7 | unsupMode8to15 | reserved6to7 | reservedA
  | reservedCtoF => cases hi
  | hlt | jmpImm | jr => cases h; exact .inl (by simp)
  | _ => exact unlessMisuse_next_status h (by simp)

/-- From a running state, exactly the unsupported rows end with UnsupportedInstruction. -/
theorem exec_faulted_unsupported_iff {i : Instr} {s t : State} (hs : s.status = .running) (h : exec i s = .next t) :
    (∃ a w, t.status = .faulted .unsupportedInstruction a w) ↔ unsupportedRow i = true := by
  constructor
  · rintro ⟨a, w, ht⟩
    by_contra hi
    obtain hkept | rfl := exec_status_of_supported (Bool.eq_false_iff.2 hi) h
    · simp [hkept, hs] at ht
    · simp at ht
  · intro hi
    cases (exec_of_unsupportedRow s hi).symm.trans h
    exact ⟨_, _, s.raise_status _⟩

/-- Settles O40: the step executes the row of the fetched word, and the decoder gives unsupported rows to the words of
R353. -/
theorem unsupportedRaisedExactly : Obligations.UnsupportedRaisedExactly := by
  intro s hs
  obtain ⟨t, hexec, -, -⟩ := exec_cases (decodeWords s.fetchWord s.fetchImm) s.emitTrace
  refine ⟨t, (step_of_running hs).trans hexec, ?_⟩
  have hlt := s.fetchWord.isLt
  have htop : 12 ≤ s.fetchWord.toNat / 4096 ↔ s.fetchWord.toNat / 4096 = 12 ∨ s.fetchWord.toNat / 4096 = 13 ∨
      s.fetchWord.toNat / 4096 = 14 ∨ s.fetchWord.toNat / 4096 = 15 := by omega
  rw [exec_faulted_unsupported_iff (s.emitTrace_status.trans hs) hexec, unsupportedRow_decodeWords,
    unsupportedWord_iff_toNat, htop]

end Sys2Proof.Machine

/-! ### The reset state (R400, R401) -/

namespace Sys2Proof.Machine

@[simp] theorem Mem.read_nil (a : Nat) : Mem.read [] a = Mem.unlisted := rfl

@[simp] theorem State.reg_resetWith (p : Params) (i : RegIx) : (State.resetWith p).reg i = 0 :=
  Vector.getElem_replicate i.isLt

/-- Settles O1: IP, SP and FL are entries of the register file. -/
theorem resetZeroesRegistersAndMemory : Obligations.ResetZeroesRegistersAndMemory := by
  intro p
  have hreg (i : RegIx) : (State.resetWith p).reg i = 0 := State.reg_resetWith p i
  exact ⟨hreg, hreg _, hreg _, hreg _, Mem.read_nil⟩

end Sys2Proof.Machine

/-! ### A run under fuel (R407) -/

namespace Sys2Proof.Machine

@[simp] theorem runFuel_zero (s : State) : runFuel 0 s = none := rfl

theorem runFuel_succ_of_cont {s t : State} (n : Nat) (h : hostStep s = some (.cont, t)) :
    runFuel (n + 1) s = runFuel n t := by
  simp only [runFuel, h]

theorem runFuel_succ_of_ne_cont {s t : State} {r : StepResult} (n : Nat) (h : hostStep s = some (r, t))
    (hr : r ≠ .cont) : runFuel (n + 1) s = some (r, t) := by
  cases r with
  | cont => exact absurd rfl hr
  | halt | fault => simp only [runFuel, h]

theorem continueFor_succ_eq_some_iff {k : Nat} {s u : State} :
    continueFor (k + 1) s = some u ↔ ∃ t, hostStep s = some (.cont, t) ∧ continueFor k t = some u := by
  rcases hstep : hostStep s with _ | ⟨_ | _ | c, t⟩ <;> simp [continueFor, hstep]

/-- The steps that continue use up their own fuel and nothing else: what remains runs from the state they reach. -/
theorem runFuel_add_of_continueFor {k : Nat} {s u : State} (n : Nat) (h : continueFor k s = some u) :
    runFuel (k + n) s = runFuel n u := by
  induction k generalizing s with
  | zero =>
    cases h
    rw [Nat.zero_add]
  | succ k ih =>
    obtain ⟨t, hstep, hrest⟩ := continueFor_succ_eq_some_iff.1 h
    calc runFuel (k + 1 + n) s = runFuel (k + n + 1) s := by rw [Nat.add_right_comm]
      _ = runFuel (k + n) t := runFuel_succ_of_cont _ hstep
      _ = runFuel n u := ih hrest

/-- Settles O4: after the steps that continue, the fuel left meets the first other result, or there is none left. -/
theorem runReturnsFirstOtherResult : Obligations.RunReturnsFirstOtherResult := by
  constructor
  · intro k m s u t r hcont hstep hr
    calc runFuel (k + 1 + m) s = runFuel (k + (m + 1)) s := by rw [Nat.add_assoc, Nat.add_comm 1]
      _ = runFuel (m + 1) u := runFuel_add_of_continueFor _ hcont
      _ = some (r, t) := runFuel_succ_of_ne_cont m hstep hr
  · intro k s u hcont
    exact (runFuel_add_of_continueFor 0 hcont).trans (runFuel_zero u)

end Sys2Proof.Machine

/-! ### The fields narrower than a nibble (30_encoding.md section 2) -/

namespace Sys2Proof

theorem toNat_append_eq_add {m n : Nat} (x : BitVec m) (y : BitVec n) :
    (x ++ y).toNat = x.toNat * 2 ^ n + y.toNat := by
  rw [BitVec.toNat_append, ← Nat.shiftLeft_add_eq_or_of_lt y.isLt, Nat.shiftLeft_eq]

/-- The ops 12 to 15 are `11` and the two bits that ALU.n and ALUI.n carry. -/
theorem append_extract_unknownOp {w : Word} (h : 12 ≤ (nib2 w).toNat) : 3#2 ++ w.extractLsb' 8 2 = nib2 w := by
  apply BitVec.eq_of_toNat_eq
  rw [toNat_nib2] at *
  rw [toNat_append_eq_add, BitVec.extractLsb'_toNat, Nat.shiftRight_eq_div_pow, BitVec.toNat_ofNat]
  omega

/-- The selectors 8 to 15 are `1` and three bits. -/
theorem append_extract_selector {w : Word} (h : 8 ≤ (nib1 w).toNat) : 1#1 ++ w.extractLsb' 4 3 = nib1 w := by
  apply BitVec.eq_of_toNat_eq
  rw [toNat_nib1] at *
  rw [toNat_append_eq_add, BitVec.extractLsb'_toNat, Nat.shiftRight_eq_div_pow, BitVec.toNat_ofNat]
  omega

/-- The jump modes 4 to 7 are `01` and two bits. -/
theorem append_extract_mode4to7 {w : Word} (h : 4 ≤ (nib0 w).toNat) (h' : (nib0 w).toNat ≤ 7) :
    1#2 ++ w.extractLsb' 0 2 = nib0 w := by
  apply BitVec.eq_of_toNat_eq
  rw [toNat_nib0] at *
  rw [toNat_append_eq_add, BitVec.extractLsb'_toNat, Nat.shiftRight_zero, BitVec.toNat_ofNat]
  omega

/-- The jump modes 8 to 15 are `1` and three bits. -/
theorem append_extract_mode8to15 {w : Word} (h : 8 ≤ (nib0 w).toNat) : 1#1 ++ w.extractLsb' 0 3 = nib0 w := by
  apply BitVec.eq_of_toNat_eq
  rw [toNat_nib0] at *
  rw [toNat_append_eq_add, BitVec.extractLsb'_toNat, Nat.shiftRight_zero, BitVec.toNat_ofNat]
  omega

/-- The lowest nibble of MOVX is its two bank fields. -/
theorem append_extract_banks (w : Word) : w.extractLsb' 2 2 ++ w.extractLsb' 0 2 = nib0 w := by
  apply BitVec.eq_of_toNat_eq
  rw [toNat_nib0, toNat_append_banks, BitVec.extractLsb'_toNat, BitVec.extractLsb'_toNat, Nat.shiftRight_eq_div_pow,
    Nat.shiftRight_zero]
  omega

/-- The high byte is the two upper nibbles. -/
theorem wordOf_nibbles (w : Word) : wordOf (nib3 w ++ nib2 w) (lowByte w) = w := by
  apply BitVec.eq_of_toNat_eq
  have hlt := w.isLt
  rw [toNat_wordOf, toNat_append_nibbles, toNat_nib3, toNat_nib2, toNat_lowByte]
  omega

/-- A reserved word is the bits that tell its row, and the rest as the row carries it. -/
theorem append_extract_reserved {m n : Nat} {w : BitVec (m + n)} {top : BitVec m} (h : w.toNat / 2 ^ n = top.toNat) :
    top ++ w.extractLsb' 0 n = w := by
  apply BitVec.eq_of_toNat_eq
  rw [toNat_append_eq_add, BitVec.extractLsb'_toNat, Nat.shiftRight_zero, ← h, Nat.div_add_mod']

end Sys2Proof

/-! ### Encoding what was decoded (30_encoding.md sections 3 and 5) -/

namespace Sys2Proof

theorem decodeUnary_of_unsupported {w : Word} (h : 8 ≤ (nib1 w).toNat) :
    decodeUnary w = .unsupSel8to15 (w.extractLsb' 4 3) (nib0 w) := by
  unfold decodeUnary
  split
  case h_9 => rfl
  all_goals omega

theorem firstWord_decodeUnary (w : Word) : firstWord (decodeUnary w) = ofNibbles 0 0 (nib1 w) (nib0 w) := by
  obtain hlow | hhigh := lt_or_ge (nib1 w).toNat 8
  · unfold decodeUnary
    interval_cases h : (nib1 w).toNat <;>
      exact congrArg (ofNibbles 0 0 · (nib0 w)) (BitVec.eq_of_toNat_eq h.symm)
  · rw [decodeUnary_of_unsupported hhigh, firstWord, append_extract_selector hhigh]

theorem firstWord_decodeAluReg {w : Word} (hop : nib2 w ≠ 0#4) :
    firstWord (decodeAluReg w) = ofNibbles 0 (nib2 w) (nib1 w) (nib0 w) := by
  obtain hknown | hunknown := lt_or_ge (nib2 w).toNat 12
  · have hpos : 0 < (nib2 w).toNat := Nat.pos_of_ne_zero fun h => hop (BitVec.eq_of_toNat_eq h)
    unfold decodeAluReg
    interval_cases h : (nib2 w).toNat <;>
      exact congrArg (ofNibbles 0 · (nib1 w) (nib0 w)) (BitVec.eq_of_toNat_eq h.symm)
  · rw [decodeAluReg_of_unknown hunknown, firstWord, append_extract_unknownOp hunknown]

theorem firstWord_decodeAluImm (w : Word) :
    firstWord (decodeAluImm w) = ofNibbles 2 (nib2 w) (nib1 w) (nib0 w) := by
  obtain hknown | hunknown := lt_or_ge (nib2 w).toNat 12
  · unfold decodeAluImm
    interval_cases h : (nib2 w).toNat <;>
      exact congrArg (ofNibbles 2 · (nib1 w) (nib0 w)) (BitVec.eq_of_toNat_eq h.symm)
  · rw [decodeAluImm_of_unknown hunknown, firstWord, append_extract_unknownOp hunknown]

theorem decodeJump_of_mode4to7 {w : Word} (imm : Word) (h : 4 ≤ (nib0 w).toNat) (h' : (nib0 w).toNat ≤ 7) :
    decodeJump w imm = .unsupMode4to7 (condOfBits (nib2 w)) (nib1 w) (w.extractLsb' 0 2) := by
  unfold decodeJump
  interval_cases (nib0 w).toNat <;> rfl

theorem decodeJump_of_mode8to15 {w : Word} (imm : Word) (h : 8 ≤ (nib0 w).toNat) :
    decodeJump w imm = .unsupMode8to15 (condOfBits (nib2 w)) (nib1 w) (w.extractLsb' 0 3) := by
  unfold decodeJump
  split
  case h_9 => rfl
  all_goals omega

/-- A jump's mode by its class: the modes 0 to 3 have a row each, the other twelve share two rows. -/
theorem firstWord_decodeJump (w imm : Word) :
    firstWord (decodeJump w imm) = ofNibbles 1 (nib2 w) (nib1 w) (nib0 w) := by
  obtain hlow | ⟨hlo, hhi⟩ | hhigh :
      (nib0 w).toNat < 4 ∨ (4 ≤ (nib0 w).toNat ∧ (nib0 w).toNat ≤ 7) ∨ 8 ≤ (nib0 w).toNat := by omega
  · unfold decodeJump
    interval_cases h : (nib0 w).toNat <;> simp only [firstWord, condBits_condOfBits] <;>
      exact congrArg (ofNibbles 1 (nib2 w) (nib1 w)) (BitVec.eq_of_toNat_eq h.symm)
  · rw [decodeJump_of_mode4to7 imm hlo hhi, firstWord, condBits_condOfBits, append_extract_mode4to7 hlo hhi]
  · rw [decodeJump_of_mode8to15 imm hhigh, firstWord, condBits_condOfBits, append_extract_mode8to15 hhigh]

theorem ofNibbles_of_nib3 {w : Word} {k : BitVec 4} (h : nib3 w = k) :
    ofNibbles k (nib2 w) (nib1 w) (nib0 w) = w := by
  rw [← h, ofNibbles_nibbles]

theorem wordOf_of_nib3 {w : Word} {k : BitVec 4} (h : nib3 w = k) : wordOf (k ++ nib2 w) (lowByte w) = w := by
  rw [← h, wordOf_nibbles]

/-- Under top nibble 0 stand HLT, the 1-operand and the register forms, told apart by the word and its second nibble. -/
theorem firstWord_decodeWords_of_nib3_zero {w : Word} (imm : Word) (h3 : nib3 w = 0#4) :
    firstWord (decodeWords w imm) = w := by
  have hnibbles : ofNibbles 0 (nib2 w) (nib1 w) (nib0 w) = w := ofNibbles_of_nib3 h3
  by_cases hw : w = 0#16
  · rw [hw]
    rfl
  · by_cases h2 : nib2 w = 0#4
    · rw [h2] at hnibbles
      rw [decodeWords_unary hw h3 h2, firstWord_decodeUnary]
      exact hnibbles
    · rw [decodeWords_aluReg h3 h2, firstWord_decodeAluReg h2, hnibbles]

/-- Every word is the first word of the instruction it decodes to. -/
theorem firstWord_decodeWords (w imm : Word) : firstWord (decodeWords w imm) = w := by
  have htop := toNat_nib3_eq_div w
  match h : (nib3 w).toNat with
  | 0 => exact firstWord_decodeWords_of_nib3_zero imm (BitVec.eq_of_toNat_eq h)
  | 1 => rw [decodeWords_jump h, firstWord_decodeJump, ofNibbles_of_nib3 (BitVec.eq_of_toNat_eq h)]
  | 2 => rw [decodeWords_aluImm h, firstWord_decodeAluImm, ofNibbles_of_nib3 (BitVec.eq_of_toNat_eq h)]
  | 3 => rw [decodeWords_jr h, firstWord, condBits_condOfBits, wordOf_of_nib3 (BitVec.eq_of_toNat_eq h)]
  | 4 => rw [decodeWords_ld h, firstWord, ofNibbles_of_nib3 (BitVec.eq_of_toNat_eq h)]
  | 5 => rw [decodeWords_st h, firstWord, ofNibbles_of_nib3 (BitVec.eq_of_toNat_eq h)]
  | 6 => rw [decodeWords_reserved6to7 (.inl h), firstWord, append_extract_reserved (show w.toNat / 8192 = 3 by omega)]
  | 7 => rw [decodeWords_reserved6to7 (.inr h), firstWord, append_extract_reserved (show w.toNat / 8192 = 3 by omega)]
  | 8 => rw [decodeWords_ldi h, firstWord, wordOf_of_nib3 (BitVec.eq_of_toNat_eq h)]
  | 9 => rw [decodeWords_ldw h, firstWord, wordOf_of_nib3 (BitVec.eq_of_toNat_eq h)]
  | 10 => rw [decodeWords_reservedA h, firstWord, append_extract_reserved (show w.toNat / 4096 = 10 by omega)]
  | 11 =>
    rw [decodeWords_movx h, firstWord, append_extract_banks, ofNibbles_of_nib3 (BitVec.eq_of_toNat_eq h)]
  | n + 12 =>
    rw [decodeWords_reservedCtoF (by omega), firstWord, append_extract_reserved (show w.toNat / 16384 = 3 by omega)]

theorem wf_eq_false_iff (i : Instr) : i.wf = false ↔ i = .unsupSel0 0 := by
  cases i <;> simp [Instr.wf]

/-- The one instruction that is not well formed has the halt word, which decodes to HLT. -/
theorem wf_decodeWords (w imm : Word) : (decodeWords w imm).wf = true := by
  by_contra hwf
  have hdec : decodeWords w imm = .unsupSel0 0 := (wf_eq_false_iff _).1 (Bool.eq_false_iff.2 hwf)
  have hw : w = 0#16 := by rw [← firstWord_decodeWords w imm, hdec]; rfl
  cases hdec.symm.trans ((decodeWords_eq_hlt_iff w imm).2 hw)

theorem bytesOfWords_encode_decodeWords (w imm : Word) :
    bytesOfWords (encode (decodeWords w imm)) = bytesOfWords (if hasImmWord w then [w, imm] else [w]) := by
  rw [encode, firstWord_decodeWords, immWord_decodeWords]
  split <;> rfl

/-- Settles O51: the two ways `decode` accepts, with an immediate word and without one. -/
theorem encodeOfDecode : Obligations.EncodeOfDecode := by
  intro bs rest i hdec
  unfold decode at hdec
  split at hdec
  next hi lo tail =>
    split at hdec
    next himm =>
      split at hdec
      next hi2 lo2 rest2 =>
        cases hdec
        exact ⟨wf_decodeWords _ _, by simp [bytesOfWords_encode_decodeWords, himm, bytesOfWords]⟩
      next => cases hdec
    next himm =>
      cases hdec
      exact ⟨wf_decodeWords _ _, by simp [bytesOfWords_encode_decodeWords, himm, bytesOfWords]⟩
  next => cases hdec

end Sys2Proof

/-! ### Decoding what was encoded (30_encoding.md sections 3 and 5) -/

namespace Sys2Proof

theorem decode_of_hasImmWord {w : Word} (imm : Word) (rest : List Byte) (h : hasImmWord w = true) :
    decode (bytesOfWords [w, imm] ++ rest) = .ok (decodeWords w imm, rest) := by
  simp [bytesOfWords, decode, h]

theorem decode_of_not_hasImmWord {w : Word} (rest : List Byte) (h : hasImmWord w = false) :
    decode (bytesOfWords [w] ++ rest) = .ok (decodeWords w 0, rest) := by
  simp [bytesOfWords, decode, h]

/-- The selectors and the jump modes 8 to 15, `1` and the three bits their rows carry, as numbers. -/
theorem toNat_one_append (sel : BitVec 3) : (1#1 ++ sel : BitVec 4).toNat = 8 + sel.toNat := by
  revert sel; decide

/-- The jump modes 4 to 7, `01` and the two bits their row carries. -/
theorem toNat_zero_one_append (m : BitVec 2) : (1#2 ++ m : BitVec 4).toNat = 4 + m.toNat := by
  revert m; decide

theorem selector_ne_zero (sel : BitVec 3) : 1#1 ++ sel ≠ 0#4 := by
  revert sel; decide

theorem unknownOp_ne_zero (n : BitVec 2) : 3#2 ++ n ≠ 0#4 := by
  revert n; decide

theorem decodeUnary_ofNibbles_unsupSel8to15 (sel : BitVec 3) (rd : BitVec 4) :
    decodeUnary (ofNibbles 0 0 (1#1 ++ sel) rd) = .unsupSel8to15 sel rd := by
  have hbits : (ofNibbles 0 0 (1#1 ++ sel) rd).extractLsb' 4 3 = sel := by
    apply BitVec.eq_of_toNat_eq
    rw [BitVec.extractLsb'_toNat, toNat_ofNibbles, toNat_one_append, Nat.shiftRight_eq_div_pow]
    omega
  have hhigh : 8 ≤ (nib1 (ofNibbles 0 0 (1#1 ++ sel) rd)).toNat := by
    rw [nib1_ofNibbles, toNat_one_append]
    omega
  rw [decodeUnary_of_unsupported hhigh, hbits, nib0_ofNibbles]

theorem decodeJump_ofNibbles_mode4to7 (c rd : BitVec 4) (m : BitVec 2) (imm : Word) :
    decodeJump (ofNibbles 1 c rd (1#2 ++ m)) imm = .unsupMode4to7 (condOfBits c) rd m := by
  have hbits : (ofNibbles 1 c rd (1#2 ++ m)).extractLsb' 0 2 = m := by
    apply BitVec.eq_of_toNat_eq
    rw [BitVec.extractLsb'_toNat, toNat_ofNibbles, toNat_zero_one_append, Nat.shiftRight_zero]
    omega
  have hmode : (nib0 (ofNibbles 1 c rd (1#2 ++ m))).toNat = 4 + m.toNat := by
    rw [nib0_ofNibbles, toNat_zero_one_append]
  rw [decodeJump_of_mode4to7 imm (by omega) (by omega), hbits, nib2_ofNibbles, nib1_ofNibbles]

theorem decodeJump_ofNibbles_mode8to15 (c rd : BitVec 4) (m : BitVec 3) (imm : Word) :
    decodeJump (ofNibbles 1 c rd (1#1 ++ m)) imm = .unsupMode8to15 (condOfBits c) rd m := by
  have hbits : (ofNibbles 1 c rd (1#1 ++ m)).extractLsb' 0 3 = m := by
    apply BitVec.eq_of_toNat_eq
    rw [BitVec.extractLsb'_toNat, toNat_ofNibbles, toNat_one_append, Nat.shiftRight_zero]
    omega
  have hmode : (nib0 (ofNibbles 1 c rd (1#1 ++ m))).toNat = 8 + m.toNat := by
    rw [nib0_ofNibbles, toNat_one_append]
  rw [decodeJump_of_mode8to15 imm (by omega), hbits, nib2_ofNibbles, nib1_ofNibbles]

/-- Selector 0 is the one whose word can be the halt word, where rd is 0. -/
theorem decodeWords_ofNibbles_unsupSel0 {rd : BitVec 4} (imm : Word) (hrd : rd ≠ 0#4) :
    decodeWords (ofNibbles 0 0 0 rd) imm = .unsupSel0 rd := by
  have hne : ofNibbles 0 0 0 rd ≠ 0#16 := fun hw => hrd <| calc
    rd = nib0 (ofNibbles 0 0 0 rd) := (nib0_ofNibbles ..).symm
    _ = nib0 0#16 := congrArg nib0 hw
    _ = 0#4 := rfl
  rw [decodeWords_unary hne (nib3_ofNibbles ..) (nib2_ofNibbles ..)]
  simp [decodeUnary]

section
variable (imm : Word)

theorem decodeWords_append_reserved6to7 (low : BitVec 13) : decodeWords (3#3 ++ low) imm = .reserved6to7 low := by
  have hword : (3#3 ++ low : Word).toNat = 3 * 8192 + low.toNat := toNat_append_eq_add 3#3 low
  rw [decodeWords_reserved6to7 (by rw [toNat_nib3_eq_div, hword]; omega), BitVec.extractLsb'_append_eq_right]

theorem decodeWords_append_reservedA (low : BitVec 12) : decodeWords (10#4 ++ low) imm = .reservedA low := by
  have hword : (10#4 ++ low : Word).toNat = 10 * 4096 + low.toNat := toNat_append_eq_add 10#4 low
  rw [decodeWords_reservedA (by rw [toNat_nib3_eq_div, hword]; omega), BitVec.extractLsb'_append_eq_right]

theorem decodeWords_append_reservedCtoF (low : BitVec 14) : decodeWords (3#2 ++ low) imm = .reservedCtoF low := by
  have hword : (3#2 ++ low : Word).toNat = 3 * 16384 + low.toNat := toNat_append_eq_add 3#2 low
  rw [decodeWords_reservedCtoF (by rw [toNat_nib3_eq_div, hword]; omega), BitVec.extractLsb'_append_eq_right]

end

/-- The first word of a well-formed instruction decodes to it, when the word after is its immediate, if it has one. -/
theorem decodeWords_firstWord {i : Instr} (imm : Word) (hwf : i.wf = true)
    (himm : ∀ v, immWord i = some v → v = imm) : decodeWords (firstWord i) imm = i := by
  cases i with
  | hlt => rfl
  | not | neg | push | pop | inc | dec | unsupSel7 =>
    simp only [firstWord]
    rw [decodeWords_ofNibbles_unary _ _ (by decide)]
    simp [decodeUnary]
  | unsupSel0 => exact decodeWords_ofNibbles_unsupSel0 imm (by simpa [Instr.wf] using hwf)
  | unsupSel8to15 sel rd =>
    rw [firstWord, decodeWords_ofNibbles_unary _ _ (selector_ne_zero sel), decodeUnary_ofNibbles_unsupSel8to15]
  | add | sub | or | nor | and | nand | xor | xnor | adc | sbb | cmp =>
    simp only [firstWord]
    rw [decodeWords_ofNibbles_aluReg _ _ _ (by decide)]
    simp [decodeAluReg]
  | aluN n =>
    rw [firstWord, decodeWords_ofNibbles_aluReg _ _ _ (unknownOp_ne_zero n), decodeAluReg_ofNibbles_aluN]
  | jmpReg | jmpInd | unsupMode3 =>
    simp only [firstWord]
    rw [decodeWords_ofNibbles_jump]
    simp [decodeJump]
  | jmpImm cc ign v =>
    rw [himm v rfl, firstWord, decodeWords_jmpImm, condOfBits_condBits]
  | unsupMode4to7 =>
    rw [firstWord, decodeWords_ofNibbles_jump, decodeJump_ofNibbles_mode4to7, condOfBits_condBits]
  | unsupMode8to15 =>
    rw [firstWord, decodeWords_ofNibbles_jump, decodeJump_ofNibbles_mode8to15, condOfBits_condBits]
  | aluI0 | addi | subi | ori | nori | andi | nandi | xori | xnori | adci | sbbi | cmpi =>
    simp only [firstWord]
    rw [decodeWords_ofNibbles_aluImm]
    simp [decodeAluImm]
  | aluIN => rw [firstWord, decodeWords_ofNibbles_aluImm, decodeAluImm_ofNibbles_aluIN]
  | jr => rw [firstWord, decodeWords_wordOf_jr, condOfBits_condBits]
  | ld => exact decodeWords_ofNibbles_ld _ _ _ imm
  | st => exact decodeWords_ofNibbles_st _ _ _ imm
  | reserved6to7 low => exact decodeWords_append_reserved6to7 imm low
  | ldi => exact decodeWords_wordOf_ldi _ _ imm
  | ldw rd ign v => rw [himm v rfl, firstWord, decodeWords_wordOf_ldw]
  | reservedA low => exact decodeWords_append_reservedA imm low
  | movx => exact decodeWords_ofNibbles_movx _ _ _ _ imm
  | reservedCtoF low => exact decodeWords_append_reservedCtoF imm low

/-- The first word announces an immediate word exactly when the instruction has one. -/
theorem hasImmWord_firstWord {i : Instr} (hwf : i.wf = true) : hasImmWord (firstWord i) = (immWord i).isSome := by
  have hdec : decodeWords (firstWord i) ((immWord i).getD 0) = i :=
    decodeWords_firstWord _ hwf fun v hv => by rw [hv, Option.getD_some]
  have himm := immWord_decodeWords (firstWord i) ((immWord i).getD 0)
  rw [hdec] at himm
  rw [himm]
  cases hasImmWord (firstWord i) <;> rfl

/-- Settles O50: `decode` reads as many words as `encode` writes, and the first word decodes to the instruction. -/
theorem decodeOfEncode : Obligations.DecodeOfEncode := by
  intro i rest hwf
  have hfirst := hasImmWord_firstWord hwf
  cases himm : immWord i with
  | none =>
    rw [himm] at hfirst
    rw [encode, himm, Option.toList_none, decode_of_not_hasImmWord rest hfirst,
      decodeWords_firstWord 0 hwf (by simp [himm])]
  | some v =>
    rw [himm] at hfirst
    rw [encode, himm, Option.toList_some, decode_of_hasImmWord v rest hfirst,
      decodeWords_firstWord v hwf (by simp [himm])]

end Sys2Proof

/-! ### What an instruction can do at all

An instruction takes a failure that its own fields decide, or it completes in one of seven ways. The frames below
are read off these ways, so that none of them goes through the instructions again. -/

namespace Sys2Proof.Machine

/-- The fatal failure an instruction takes, by the priority of R360. -/
def instrFailure (p : Params) (i : Instr) : Option Cause :=
  if unsupportedRow i then some .unsupportedInstruction
  else if instrMisuse p i then some .reservedRegisterMisuse
  else none

/-- `Completion i s t`: completing `i` in `s` can end in `t`. -/
inductive Completion (i : Instr) (s : State) : State → Prop where
  /-- HLT. -/
  | halt (hi : i = .hlt) : Completion i s s.halt
  /-- One register, the destination. -/
  | writeReg {d : RegIx} (hd : moveDest i = some d) (v n : Word) : Completion i s ((s.setReg d v).advance n)
  /-- The write-back of a 2-operand instruction. -/
  | writeAlu {d : RegIx} (hd : aluDest i = some d) (out : AluOut) : Completion i s (s.writeAlu d out)
  /-- A jump, taken or not. -/
  | jump (hi : i ≠ .hlt) (cc : Cond) (target n : Word) : Completion i s (s.jump cc target n)
  /-- ST. -/
  | store {rd rs ro : RegField} (hi : i = .st rd rs ro) (a v : Word) : Completion i s ((s.memWrite a v).advance 2)
  /-- PUSH. -/
  | push {rd : RegField} (hi : i = .push rd) (v : Word) : Completion i s (s.pushWord v)
  /-- POP. -/
  | pop {rd : RegField} (hi : i = .pop rd) : Completion i s (s.popInto (regIx rd))

theorem instrMisuse_iff (p : Params) (i : Instr) :
    instrMisuse p i = true ↔
      p.regIp ∈ instrOperands i ∨ stackOperand i = some p.regSp ∨ aluDest i = some p.regFl := by
  simp [instrMisuse, or_assoc]

/-- An unsupported row has no operands (R360). -/
theorem instrMisuse_of_unsupportedRow (p : Params) {i : Instr} (hi : unsupportedRow i = true) :
    instrMisuse p i = false := by
  cases i with
  | unsupSel0 | unsupSel7 | unsupSel8to15 | unsupMode3 | unsupMode4to7 | unsupMode8to15 | reserved6to7 | reservedA
  | reservedCtoF => rfl
  | _ => cases hi

/-- A meaning written as a check before a next state, where the check is the one of R357 for the instruction. -/
theorem completion_of_check {i : Instr} {s t : State} {bad : Bool} (hexec : exec i s = unlessMisuse bad s t)
    (hbad : bad = true ↔ instrMisuse s.params i = true) (ht : Completion i s t) :
    ∃ t, exec i s = unlessMisuse (instrMisuse s.params i) s t ∧ Completion i s t := by
  rw [← Bool.eq_iff_iff.2 hbad]
  exact ⟨t, hexec, ht⟩

/-- A supported instruction is the check of R357 before one of the seven ways to complete. -/
theorem exec_eq_unlessMisuse {i : Instr} (s : State) (hi : unsupportedRow i = false) :
    ∃ t, exec i s = unlessMisuse (instrMisuse s.params i) s t ∧ Completion i s t := by
  cases i with
  | hlt => exact ⟨_, rfl, .halt rfl⟩
  | not | neg | inc | dec | ldi | ldw | ld | movx =>
    exact completion_of_check rfl
      (by simp [instrMisuse_iff, instrOperands, stackOperand, aluDest, eq_comm (a := s.params.regIp), or_assoc])
      (.writeReg rfl _ _)
  | push =>
    exact completion_of_check rfl
      (by simp [instrMisuse_iff, instrOperands, stackOperand, aluDest, State.isSp, eq_comm (a := s.params.regIp)])
      (.push rfl _)
  | pop =>
    exact completion_of_check rfl
      (by simp [instrMisuse_iff, instrOperands, stackOperand, aluDest, State.isSp, eq_comm (a := s.params.regIp)])
      (.pop rfl)
  | add | sub | or | nor | and | nand | xor | xnor | adc | sbb | cmp | aluN
  | aluI0 | addi | subi | ori | nori | andi | nandi | xori | xnori | adci | sbbi | cmpi | aluIN =>
    exact completion_of_check rfl
      (by simp [instrMisuse_iff, instrOperands, stackOperand, aluDest, State.isFl, eq_comm (a := s.params.regIp),
        or_assoc])
      (.writeAlu rfl _)
  | jmpReg | jmpInd =>
    exact completion_of_check rfl
      (by simp [instrMisuse_iff, instrOperands, stackOperand, aluDest, eq_comm (a := s.params.regIp)])
      (.jump (by simp) _ _ _)
  | jmpImm | jr => exact ⟨_, rfl, .jump (by simp) _ _ _⟩
  | st =>
    exact completion_of_check rfl
      (by simp [instrMisuse_iff, instrOperands, stackOperand, aluDest, eq_comm (a := s.params.regIp), or_assoc])
      (.store rfl _ _)
  | unsupSel0 | unsupSel7 | unsupSel8to15 | unsupMode3 | unsupMode4to7 | unsupMode8to15 | reserved6to7 | reservedA
  | reservedCtoF => cases hi

theorem exec_of_instrFailure {i : Instr} {s : State} {c : Cause} (h : instrFailure s.params i = some c) :
    exec i s = .next (s.raise c) := by
  unfold instrFailure at h
  split at h
  next hi =>
    cases h
    exact exec_of_unsupportedRow s hi
  next hi =>
    split at h
    next hbad =>
      cases h
      obtain ⟨t, hexec, -⟩ := exec_eq_unlessMisuse s (Bool.eq_false_iff.2 hi)
      rw [hexec, unlessMisuse_bad s t hbad]
    next => cases h

theorem exec_of_instrFailure_eq_none {i : Instr} {s : State} (h : instrFailure s.params i = none) :
    ∃ t, exec i s = .next t ∧ Completion i s t := by
  unfold instrFailure at h
  split at h
  next => cases h
  next hi =>
    split at h
    next => cases h
    next hbad =>
      obtain ⟨t, hexec, ht⟩ := exec_eq_unlessMisuse s (Bool.eq_false_iff.2 hi)
      exact ⟨t, by rw [hexec, unlessMisuse_allowed s t (Bool.eq_false_iff.2 hbad)], ht⟩

/-- The inversion of `exec`. -/
theorem exec_next_cases {i : Instr} {s t : State} (h : exec i s = .next t) :
    (∃ c, instrFailure s.params i = some c ∧ t = s.raise c) ∨
      (instrFailure s.params i = none ∧ Completion i s t) := by
  cases hfail : instrFailure s.params i with
  | some c =>
    cases (exec_of_instrFailure hfail).symm.trans h
    exact .inl ⟨c, rfl, rfl⟩
  | none =>
    obtain ⟨u, hexec, hu⟩ := exec_of_instrFailure_eq_none hfail
    cases hexec.symm.trans h
    exact .inr ⟨rfl, hu⟩

/-! ### What a completed instruction leaves alone -/

namespace Completion

variable {i : Instr} {s t : State}

theorem params_eq (h : Completion i s t) : t.params = s.params := by
  cases h <;> simp

theorem status_eq (h : Completion i s t) : t.status = s.status := by
  cases h with
  | push _ v =>
    obtain ⟨hstatus, -, -⟩ := s.pushWord_continues v
    exact hstatus
  | pop => rfl
  | _ => simp

theorem result_eq (h : Completion i s t) : t.result = some (if i = .hlt then .halt else .cont) := by
  cases h with
  | halt hi => simp [hi]
  | writeReg hd =>
    have hi : i ≠ .hlt := by rintro rfl; cases hd
    simp [hi]
  | writeAlu hd =>
    have hi : i ≠ .hlt := by rintro rfl; cases hd
    simp [hi]
  | jump hi => simp [hi]
  | store hi => simp [hi]
  | push hi v =>
    obtain ⟨-, -, hresult⟩ := s.pushWord_continues v
    simpa [hi] using hresult
  | pop hi =>
    rw [hi]
    rfl

theorem reg_eq {j : RegIx} (h : Completion i s t) (hip : j ≠ s.params.regIp) (hmove : moveDest i ≠ some j)
    (halu : aluDest i ≠ some j) (hfl : (aluDest i).isSome → j ≠ s.params.regFl)
    (hsp : (stackOperand i).isSome → j ≠ s.params.regSp) : t.reg j = s.reg j := by
  cases h with
  | halt => exact s.reg_halt j
  | writeReg hd =>
    have hj : j ≠ _ := fun h => hmove (h ▸ hd)
    simp [State.reg_advance, State.reg_setReg, hip, hj]
  | writeAlu hd =>
    have hj : j ≠ _ := fun h => halu (h ▸ hd)
    simp [State.reg_writeAlu, hip, hj, hfl (Option.isSome_of_eq_some hd)]
  | jump => simp [State.reg_jump, hip]
  | store => simp [State.reg_advance, hip]
  | push hi =>
    have hj : j ≠ s.params.regSp := hsp (by rw [hi]; rfl)
    simp [State.pushWord, State.reg_advance, State.reg_setSp, hip, hj]
  | pop hi =>
    have hj : j ≠ s.params.regSp := hsp (by rw [hi]; rfl)
    have hd : j ≠ _ := fun h => hmove (by rw [hi, h]; rfl)
    simp [State.popInto, State.reg_advance, State.reg_setReg, State.reg_setSp, hip, hj, hd]

theorem mem_eq_and_events_eq (h : Completion i s t) (hpush : ∀ rd, i ≠ .push rd)
    (hst : ∀ rd rs ro, i ≠ .st rd rs ro) :
    t.mem = s.mem ∧ t.events = s.events := by
  cases h with
  | store hi => exact absurd hi (hst _ _ _)
  | push hi => exact absurd hi (hpush _)
  | pop => exact ⟨rfl, rfl⟩
  | _ => simp

theorem wf_mem (h : Completion i s t) (hwf : Mem.wf s.mem = true) : Mem.wf t.mem = true := by
  cases h with
  | store hi a v => exact s.memWrite_wf a v hwf
  | push hi v => exact (s.setSp (s.sp - 2)).memWrite_wf (s.sp - 2) v hwf
  | pop => exact hwf
  | _ => simpa using hwf

end Completion

theorem params_of_exec_next {i : Instr} {s t : State} (h : exec i s = .next t) : t.params = s.params := by
  obtain ⟨c, -, rfl⟩ | ⟨-, hdone⟩ := exec_next_cases h
  · exact s.raise_params c
  · exact hdone.params_eq

end Sys2Proof.Machine

/-! ### What no instruction touches (10_state.md, 20_memory.md) -/

namespace Sys2Proof.Machine

/-- Settles O44: a failure touches no register, a completed instruction those of `Completion.reg_eq`. -/
theorem registersOutsideDestinationsUnchanged : Obligations.RegistersOutsideDestinationsUnchanged := by
  intro i s t j h hip hmove halu hfl hsp
  obtain ⟨c, -, rfl⟩ | ⟨-, hdone⟩ := exec_next_cases h
  · exact s.reg_raise c j
  · exact hdone.reg_eq hip hmove halu hfl hsp

theorem regIx_val_lt (f : RegField) : (regIx f).val < 16 := f.isLt

/-- A 4-bit register field names no register of the extended bank. -/
theorem moveDest_val_lt {i : Instr} {d : RegIx} (hi : ∀ rd rs bd bs, i ≠ .movx rd rs bd bs)
    (h : moveDest i = some d) : d.val < 16 := by
  cases i with
  | movx => exact absurd rfl (hi _ _ _ _)
  | not | neg | pop | inc | dec | ld | ldi | ldw => cases h; exact regIx_val_lt _
  | _ => cases h

theorem aluDest_val_lt {i : Instr} {d : RegIx} (h : aluDest i = some d) : d.val < 16 := by
  cases i with
  | add | sub | or | nor | and | nand | xor | xnor | adc | sbb | cmp | aluN
  | aluI0 | addi | subi | ori | nori | andi | nandi | xori | xnori | adci | sbbi | cmpi | aluIN =>
    cases h; exact regIx_val_lt _
  | _ => cases h

/-- Settles O45: from index 16 on a register is no destination of a 4-bit field, so O44 applies. -/
theorem extendedBankOnlyByMovx : Obligations.ExtendedBankOnlyByMovx := by
  intro i s t j h hi hj hip hsp hfl
  have hmove : moveDest i ≠ some j := fun hd => absurd (moveDest_val_lt hi hd) (by omega)
  have halu : aluDest i ≠ some j := fun hd => absurd (aluDest_val_lt hd) (by omega)
  exact registersOutsideDestinationsUnchanged i s t j h hip hmove halu (fun _ => hfl) (fun _ => hsp)

/-- Settles O46: FL is neither IP nor SP (R22), so O44 applies to it. -/
theorem flagsOnlyByAluOrExplicitWrite : Obligations.FlagsOnlyByAluOrExplicitWrite := by
  intro i s t hadm h halu hmove
  obtain ⟨-, -, -, -, hspfl, hipfl, -⟩ := hadm
  have hfl : t.reg s.params.regFl = s.reg s.params.regFl :=
    registersOutsideDestinationsUnchanged i s t s.params.regFl h hipfl.symm hmove (by simp [halu])
      (by simp [halu]) fun _ => hspfl.symm
  rw [State.fl, params_of_exec_next h, hfl, State.fl]

/-- Settles O47: a failure touches neither memory nor the events, a completed instruction by
`Completion.mem_eq_and_events_eq`. -/
theorem memoryOnlyByStAndPush : Obligations.MemoryOnlyByStAndPush := by
  intro i s t h hpush hst
  have hkept : t.mem = s.mem ∧ t.events = s.events := by
    obtain ⟨c, -, rfl⟩ | ⟨-, hdone⟩ := exec_next_cases h
    · exact ⟨rfl, rfl⟩
    · exact hdone.mem_eq_and_events_eq hpush hst
  obtain ⟨hmem, hevents⟩ := hkept
  exact ⟨fun a => by rw [hmem], hmem, hevents⟩

end Sys2Proof.Machine

/-! ### The step (30_encoding.md section 1, 60_exceptions.md) -/

namespace Sys2Proof.Machine

/-- The failure of a step is that of the instruction it fetches: the decoder gives unsupported rows to unsupported
words. -/
theorem State.nextFailure_eq (s : State) :
    s.nextFailure = instrFailure s.params (decodeWords s.fetchWord s.fetchImm) := by
  simp only [State.nextFailure, instrFailure, unsupportedRow_decodeWords]

/-- A step that answers a next state: the trace event, then the failure, or one of the seven ways to complete. -/
theorem step_next_cases {s t : State} (h : step s = .next t) :
    (∃ c, s.nextFailure = some c ∧ t = s.emitTrace.raise c) ∨
      (s.nextFailure = none ∧ Completion (decodeWords s.fetchWord s.fetchImm) s.emitTrace t) := by
  rw [step_of_running (running_of_step_next h)] at h
  rw [State.nextFailure_eq]
  exact exec_next_cases h

theorem step_of_faulted {s : State} {c : Cause} {a w : Word} (h : s.status = .faulted c a w) :
    step s = .fault (.terminal c a w) := by
  simp only [step, h]

theorem hostStep_of_faulted {s : State} {c : Cause} {a w : Word} (h : s.status = .faulted c a w) :
    hostStep s = some (.fault c, s) := by
  simp only [hostStep, step_of_faulted h]

theorem hostStep_of_step_next {s t : State} {r : StepResult} (h : step s = .next t) (hr : t.result = some r) :
    hostStep s = some (r, t) := by
  simp only [hostStep, h, hr, Option.map_some]

/-- A running block always steps. -/
theorem exists_step_next {s : State} (h : s.status = .running) : ∃ t, step s = .next t := by
  obtain ⟨t, hexec, -⟩ := exec_cases (decodeWords s.fetchWord s.fetchImm) s.emitTrace
  exact ⟨t, (step_of_running h).trans hexec⟩

/-- HLT takes no failure. -/
theorem State.nextFailure_of_halt {s : State} (h : s.fetchWord = 0#16) : s.nextFailure = none := by
  rw [State.nextFailure_eq, h]
  rfl

/-- The result of a step, in the priority of R352 and R360. -/
theorem result_of_step_next {s t : State} (h : step s = .next t) :
    t.result = some (if s.fetchWord = 0#16 then .halt else match s.nextFailure with
      | some c => .fault c
      | none => .cont) := by
  obtain ⟨c, hfail, rfl⟩ | ⟨hfail, hdone⟩ := step_next_cases h
  · have hne : s.fetchWord ≠ 0#16 := fun hw => by simp [State.nextFailure_of_halt hw] at hfail
    simp [hfail, hne]
  · simp [hdone.result_eq, decodeWords_eq_hlt_iff, hfail]

/-- Settles O39: a running block always steps, with the result of `result_of_step_next`. -/
theorem everyStepReturnsOneResult : Obligations.EveryStepReturnsOneResult := by
  intro s
  cases hs : s.status with
  | faulted c a w => exact ⟨step_of_faulted hs, hostStep_of_faulted hs⟩
  | running =>
    obtain ⟨t, ht⟩ := exists_step_next hs
    exact ⟨t, ht, hostStep_of_step_next ht (result_of_step_next ht)⟩

/-- After a step the block is Faulted exactly if the step met a failure, and then by that failure. -/
theorem faulted_of_step_next_iff {s t : State} (h : step s = .next t) (c : Cause) :
    (∃ a w, t.status = .faulted c a w) ↔ s.nextFailure = some c := by
  have hs := running_of_step_next h
  obtain ⟨c', hfail, rfl⟩ | ⟨hfail, hdone⟩ := step_next_cases h
  · simp [hfail]
  · simp [hfail, hdone.status_eq, hs]

/-- Settles O41: no unsupported row has a forbidden operand, so the priority of R360 hides no misuse. -/
theorem misuseRaisedExactly : Obligations.MisuseRaisedExactly := by
  intro s hs
  obtain ⟨t, ht⟩ := exists_step_next hs
  refine ⟨t, ht, ?_⟩
  rw [faulted_of_step_next_iff ht, State.nextFailure_eq, ← instrMisuse_iff, instrFailure]
  split
  next hi => simp [instrMisuse_of_unsupportedRow _ hi]
  next => simp

/-- Settles O42: the next state of a failing step is the one `State.raise` gives after the trace event. -/
theorem fatalFailureIsPrecise : Obligations.FatalFailureIsPrecise := by
  intro s t c a w hs h ht
  have hfail : s.nextFailure = some c := (faulted_of_step_next_iff h c).1 ⟨a, w, ht⟩
  obtain ⟨c', hfail', rfl⟩ | ⟨hnone, -⟩ := step_next_cases h
  · cases hfail.symm.trans hfail'
    rfl
  · cases hnone.symm.trans hfail

/-- The one way to an event is the write path. -/
theorem State.memWrite_events_cases (s : State) (a v : Word) :
    ∃ port, (s.memWrite a v).events = s.events ++ port ∧ (port = [] ∨ ∃ v, port = [Event.portOut v]) := by
  unfold State.memWrite
  split
  · exact ⟨[.portOut v], rfl, .inr ⟨v, rfl⟩⟩
  · exact ⟨[], (List.append_nil _).symm, .inl rfl⟩

/-- A completed instruction emits at most one port event. -/
theorem Completion.events_cases {i : Instr} {s t : State} (h : Completion i s t) :
    ∃ port, t.events = s.events ++ port ∧ (port = [] ∨ ∃ v, port = [Event.portOut v]) := by
  cases h with
  | store hi a v => exact s.memWrite_events_cases a v
  | push hi v => exact (s.setSp (s.sp - 2)).memWrite_events_cases (s.sp - 2) v
  | pop => exact ⟨[], (List.append_nil _).symm, .inl rfl⟩
  | _ => exact ⟨[], by simp, .inl rfl⟩

theorem params_of_step_next {s t : State} (h : step s = .next t) : t.params = s.params := by
  rw [step_of_running (running_of_step_next h)] at h
  exact (params_of_exec_next h).trans s.emitTrace_params

/-- Settles O48: the trace event comes before the failure or the instruction's own events. -/
theorem oneTraceThenAtMostOnePort : Obligations.OneTraceThenAtMostOnePort := by
  intro s t _ h
  refine ⟨params_of_step_next h, ?_⟩
  obtain ⟨c, -, rfl⟩ | ⟨-, hdone⟩ := step_next_cases h
  · exact ⟨[], rfl, .inl rfl⟩
  · obtain ⟨port, hevents, hport⟩ := hdone.events_cases
    exact ⟨port, hevents.trans (List.append_assoc ..), hport⟩

/-- Settles O37: the failure of the unsupported rows, spelled out. -/
theorem unsupportedRowsTakeFailure : Obligations.UnsupportedRowsTakeFailure :=
  fun _ hi s => exec_of_unsupportedRow s hi

/-- Settles O36: only the trace event and the result are new. -/
theorem haltChangesNothing : Obligations.HaltChangesNothing := by
  refine ⟨decodeWords_halt, fun _ => rfl, fun s hs hw => ?_⟩
  calc step s = exec .hlt s.emitTrace := by rw [step_of_running hs, hw, decodeWords_halt]
    _ = .next s.emitTrace.halt := rfl
    _ = _ := by rw [State.emitTrace, hw]; rfl

end Sys2Proof.Machine

/-! ### A step and the bytes at IP (30_encoding.md section 1) -/

namespace Sys2Proof

/-- Without an immediate word the word after the first has no part in decoding: the instruction's own first word decodes
to it with any other. -/
theorem decodeWords_eq_of_not_hasImmWord {w : Word} (imm imm' : Word) (h : hasImmWord w = false) :
    decodeWords w imm = decodeWords w imm' := by
  have hnone : immWord (decodeWords w imm) = none := by rw [immWord_decodeWords, h]; rfl
  have hdec := decodeWords_firstWord imm' (wf_decodeWords w imm) (by simp [hnone])
  rwa [firstWord_decodeWords, eq_comm] at hdec

/-- Two words are enough to decode. -/
theorem decode_two_words (w imm : Word) : ∃ rest, decode (bytesOfWords [w, imm]) = .ok (decodeWords w imm, rest) := by
  cases h : hasImmWord w with
  | true => exact ⟨[], decode_of_hasImmWord imm [] h⟩
  | false =>
    refine ⟨bytesOfWords [imm], ?_⟩
    rw [decodeWords_eq_of_not_hasImmWord imm 0 h]
    exact decode_of_not_hasImmWord (bytesOfWords [imm]) h

end Sys2Proof

namespace Sys2Proof.Machine

/-- Settles O38: the bytes at IP are the two fetched words, and decode as the step decodes those. -/
theorem stepRunsDecodedInstruction : Obligations.StepRunsDecodedInstruction := by
  intro s i rest hs hdec
  obtain ⟨rest', hdec'⟩ := decode_two_words s.fetchWord s.fetchImm
  cases hdec'.symm.trans hdec
  exact ⟨step_of_running hs, rfl⟩

end Sys2Proof.Machine

/-! ### The invariant (60_exceptions.md section 4) -/

namespace Sys2Proof.Machine

theorem State.inv_iff (s : State) :
    s.inv = true ↔ Mem.wf s.mem = true ∧ s.params.Admissible ∧ s.statusOk = true := by
  simp only [State.inv, Bool.and_eq_true, decide_eq_true_eq, and_assoc]

/-- Taking the failure that the step meets leaves the block standing at it. -/
theorem State.statusOk_raise {s : State} {c : Cause} (h : s.nextFailure = some c) : (s.raise c).statusOk = true := by
  have hfail : (s.raise c).nextFailure = some c := h
  simp [State.statusOk, hfail]

theorem State.statusOk_of_running {s : State} (hs : s.status = .running) (hr : ∀ c, s.result ≠ some (.fault c)) :
    s.statusOk = true := by
  simp only [State.statusOk, hs]
  split
  next c hc => exact absurd hc (hr c)
  all_goals rfl

theorem statusOk_of_step_next {s t : State} (h : step s = .next t) : t.statusOk = true := by
  have hs := running_of_step_next h
  obtain ⟨c, hfail, rfl⟩ | ⟨-, hdone⟩ := step_next_cases h
  · exact State.statusOk_raise (s := s.emitTrace) hfail
  · refine State.statusOk_of_running (hdone.status_eq.trans hs) fun c => ?_
    rw [hdone.result_eq]
    split <;> simp

theorem wf_mem_of_step_next {s t : State} (h : step s = .next t) (hwf : Mem.wf s.mem = true) : Mem.wf t.mem = true := by
  obtain ⟨c, -, rfl⟩ | ⟨-, hdone⟩ := step_next_cases h
  · exact hwf
  · exact hdone.wf_mem hwf

/-- Settles O55: memory, parameters and status each by its own lemma about a step. -/
theorem stepKeepsInvariant : Obligations.StepKeepsInvariant := by
  intro s t hinv h
  obtain ⟨hwf, hadm, -⟩ := s.inv_iff.1 hinv
  have hparams := params_of_step_next h
  exact ⟨t.inv_iff.2 ⟨wf_mem_of_step_next h hwf, hparams ▸ hadm, statusOk_of_step_next h⟩, hparams⟩

/-- Settles O54: the reset memory is canonical and nothing has happened yet. -/
theorem resetSatisfiesInvariant : Obligations.ResetSatisfiesInvariant := by
  have hreset (p : Params) (hadm : p.Admissible) : (State.resetWith p).inv = true :=
    (State.inv_iff _).2 ⟨Mem.wf_resetWith p, hadm, rfl⟩
  exact ⟨hreset, hreset resetParams (by decide)⟩

end Sys2Proof.Machine

/-! ### The trace and execution (60_exceptions.md section 7, decision D18)

Erasing the trace parameter and the record before an operation as well as after it makes no difference: no operation
reads either. -/

namespace Sys2Proof.Machine

section
variable (s : State)

theorem State.eraseTrace_jump (cc : Cond) (target n : Word) :
    (s.eraseTrace.jump cc target n).eraseTrace = (s.jump cc target n).eraseTrace := by
  have hfl : s.eraseTrace.fl = s.fl := rfl
  unfold State.jump
  rw [hfl]
  split <;> rfl

/-- The record of events is all that a write at the port adds to, and erasing empties it. -/
theorem State.eraseTrace_memWrite (a v : Word) :
    (s.eraseTrace.memWrite a v).eraseTrace = (s.memWrite a v).eraseTrace := by
  unfold State.memWrite
  split <;> rfl

theorem State.eraseTrace_advance (n : Word) : (s.advance n).eraseTrace = s.eraseTrace.advance n := rfl

theorem State.eraseTrace_store (a v n : Word) :
    ((s.eraseTrace.memWrite a v).advance n).eraseTrace = ((s.memWrite a v).advance n).eraseTrace := by
  rw [State.eraseTrace_advance, State.eraseTrace_memWrite, ← State.eraseTrace_advance]

theorem State.eraseTrace_pushWord (v : Word) : (s.eraseTrace.pushWord v).eraseTrace = (s.pushWord v).eraseTrace :=
  (s.setSp (s.sp - 2)).eraseTrace_store (s.sp - 2) v 2

end

/-- What an outcome shows once the trace is erased. -/
def eraseOutcome : Host.Outcome State Fault Refusal → Host.Outcome State Fault Refusal
  | .next t => .next t.eraseTrace
  | .fault f => .fault f
  | .refused r => .refused r

theorem eraseOutcome_eq_next_iff {o : Host.Outcome State Fault Refusal} {t : State} :
    eraseOutcome o = .next t ↔ ∃ u, o = .next u ∧ u.eraseTrace = t := by
  cases o <;> simp [eraseOutcome]

theorem eraseOutcome_eq_fault_iff {o : Host.Outcome State Fault Refusal} {f : Fault} :
    eraseOutcome o = .fault f ↔ o = .fault f := by
  cases o <;> simp [eraseOutcome]

/-- The check of R357 before next states that agree but for the trace. -/
theorem eraseOutcome_unlessMisuse {bad : Bool} {s t t' : State} (h : t'.eraseTrace = t.eraseTrace) :
    eraseOutcome (unlessMisuse bad s.eraseTrace t') = eraseOutcome (unlessMisuse bad s t) := by
  cases bad with
  | true => rfl
  | false => exact congrArg Host.Outcome.next h

/-- No instruction reads the trace parameter or the record of events. -/
theorem eraseOutcome_exec (i : Instr) (s : State) : eraseOutcome (exec i s.eraseTrace) = eraseOutcome (exec i s) := by
  cases i with
  | st => exact eraseOutcome_unlessMisuse (s.eraseTrace_store _ _ 2)
  | push => exact eraseOutcome_unlessMisuse (s.eraseTrace_pushWord _)
  | jmpReg | jmpInd => exact eraseOutcome_unlessMisuse (s.eraseTrace_jump _ _ _)
  | jmpImm | jr => exact congrArg Host.Outcome.next (s.eraseTrace_jump _ _ _)
  | hlt | unsupSel0 | unsupSel7 | unsupSel8to15 | unsupMode3 | unsupMode4to7 | unsupMode8to15 | reserved6to7 | reservedA
  | reservedCtoF => rfl
  | _ => exact eraseOutcome_unlessMisuse rfl

theorem eraseOutcome_exec_congr {s u : State} (i : Instr) (h : s.eraseTrace = u.eraseTrace) :
    eraseOutcome (exec i s) = eraseOutcome (exec i u) := by
  rw [← eraseOutcome_exec i s, h, eraseOutcome_exec i u]

/-- Nor does a step: what it fetches is in memory, and the event it emits goes to the record. -/
theorem eraseOutcome_step (s : State) : eraseOutcome (step s.eraseTrace) = eraseOutcome (step s) := by
  cases hs : s.status with
  | faulted c a w => rw [step_of_faulted hs, step_of_faulted (s := s.eraseTrace) hs]
  | running =>
    rw [step_of_running hs, step_of_running (s := s.eraseTrace) hs]
    exact eraseOutcome_exec_congr (decodeWords s.fetchWord s.fetchImm) rfl

/-- Settles O56: equal erasures give equal erased outcomes. -/
theorem traceNeverInfluencesExecution : Obligations.TraceNeverInfluencesExecution := by
  intro s s' herase
  have hstep : eraseOutcome (step s) = eraseOutcome (step s') := by
    rw [← eraseOutcome_step s, herase, eraseOutcome_step s']
  constructor
  · intro t ht
    rw [ht] at hstep
    obtain ⟨t', ht', heq⟩ := eraseOutcome_eq_next_iff.1 hstep.symm
    exact ⟨t', ht', heq.symm⟩
  · intro f hf
    rw [hf] at hstep
    exact eraseOutcome_eq_fault_iff.1 hstep.symm

end Sys2Proof.Machine

/-! ### Reading memory after writing it (20_memory.md sections 1 and 6, 70_reset_and_hazards.md section 2) -/

namespace Sys2Proof.Machine

theorem Mem.read_write {m : Mem} (a c : Nat) (b : Byte) (hwf : Mem.wf m = true) :
    Mem.read (Mem.write m a b) c = if c = a then b else Mem.read m c := by
  split
  next h => rw [h, Mem.read_write_self b hwf]
  next h => exact Mem.read_write_ne m b h

/-- Settles O8: a write is the latest to its address unless a later one in the list is. -/
theorem byteReadsLatestWrite : Obligations.ByteReadsLatestWrite := by
  intro m ws a hwf hws
  induction ws generalizing m with
  | nil => rfl
  | cons w ws ih =>
    obtain ⟨hw, hrest⟩ := List.forall_mem_cons.1 hws
    rw [List.foldl_cons, ih _ (Mem.wf_write w.2 hwf hw) hrest, Mem.read_write _ _ _ hwf]
    by_cases h : w.1 = a
    · cases hlast : (ws.filter fun w => w.1 == a).getLast? <;> simp [h, List.getLast?_cons, hlast]
    · simp [h, Ne.symm h]

theorem Mem.wfFrom_cons_iff {lo k : Nat} {v : Byte} {m : Mem} :
    Mem.wfFrom lo ((k, v) :: m) = true ↔ lo ≤ k ∧ k < 65536 ∧ v ≠ Mem.unlisted ∧ Mem.wfFrom (k + 1) m = true := by
  simp [Mem.wfFrom, and_assoc]

@[simp] theorem Mem.read_cons_self (k : Nat) (v : Byte) (m : Mem) : Mem.read ((k, v) :: m) k = v := if_pos rfl

theorem Mem.read_cons_ne {k a : Nat} (v : Byte) (m : Mem) (h : a ≠ k) : Mem.read ((k, v) :: m) a = Mem.read m a :=
  if_neg h.symm

/-- A listed address reads as no unlisted one does, so a list that reads alike starts no later. -/
theorem Mem.head_le_of_read_eq {lo lo' k k' : Nat} {v v' : Byte} {m n : Mem}
    (hm : Mem.wfFrom lo ((k, v) :: m) = true) (hn : Mem.wfFrom lo' ((k', v') :: n) = true)
    (h : ∀ a, a < 65536 → Mem.read ((k, v) :: m) a = Mem.read ((k', v') :: n) a) : k' ≤ k := by
  obtain ⟨-, hk, hv, -⟩ := Mem.wfFrom_cons_iff.1 hm
  obtain ⟨-, hk', hv', htail⟩ := Mem.wfFrom_cons_iff.1 hn
  by_contra hlt
  have hbelow : Mem.read ((k', v') :: n) k = Mem.unlisted :=
    Mem.read_below (Mem.wfFrom_cons_iff.2 ⟨le_rfl, hk', hv', htail⟩) (Nat.lt_of_not_le hlt)
  exact hv (by rw [← hbelow, ← h k hk, Mem.read_cons_self])

/-- Two lists that start alike and read alike have tails that read alike: at their common first address both tails list
nothing. -/
theorem Mem.read_tail_eq {k : Nat} {v : Byte} {m n : Mem} (hm : Mem.wfFrom (k + 1) m = true)
    (hn : Mem.wfFrom (k + 1) n = true) (h : ∀ a, a < 65536 → Mem.read ((k, v) :: m) a = Mem.read ((k, v) :: n) a) :
    ∀ a, a < 65536 → Mem.read m a = Mem.read n a := by
  intro a ha
  by_cases hak : a = k
  · rw [Mem.read_below hm (by omega), Mem.read_below hn (by omega)]
  · simpa only [Mem.read_cons_ne _ _ hak] using h a ha

theorem Mem.eq_of_read_eq {m n : Mem} {lo lo' : Nat} (hm : Mem.wfFrom lo m = true) (hn : Mem.wfFrom lo' n = true)
    (h : ∀ a, a < 65536 → Mem.read m a = Mem.read n a) : m = n := by
  induction m generalizing n lo lo' with
  | nil =>
    cases n with
    | nil => rfl
    | cons e n =>
      obtain ⟨k, v⟩ := e
      obtain ⟨-, hk, hv, -⟩ := Mem.wfFrom_cons_iff.1 hn
      exact absurd (by rw [← Mem.read_cons_self k v n, ← h k hk, Mem.read_nil]) hv
  | cons e m ih =>
    obtain ⟨k, v⟩ := e
    obtain ⟨-, hk, hv, hmtail⟩ := Mem.wfFrom_cons_iff.1 hm
    cases n with
    | nil => exact absurd (by rw [← Mem.read_cons_self k v m, h k hk, Mem.read_nil]) hv
    | cons e' n =>
      obtain ⟨k', v'⟩ := e'
      obtain ⟨-, -, -, hntail⟩ := Mem.wfFrom_cons_iff.1 hn
      have hkk : k = k' :=
        le_antisymm (Mem.head_le_of_read_eq hn hm fun a ha => (h a ha).symm) (Mem.head_le_of_read_eq hm hn h)
      subst hkk
      have hvv : v = v' := by simpa using h k hk
      subst hvv
      rw [ih hmtail hntail (Mem.read_tail_eq hmtail hntail h)]

/-- Settles O9: by induction along both lists, first entries and then tails. -/
theorem equalReadsEqualMemory : Obligations.EqualReadsEqualMemory :=
  fun _ _ hm hn h => Mem.eq_of_read_eq hm hn h

/-- Outside the image the host's copy leaves memory alone. -/
theorem Mem.read_writeBytes_outside (m : Mem) {a c : Nat} (bs : List Byte) (h : c < a ∨ a + bs.length ≤ c) :
    Mem.read (Mem.writeBytes m a bs) c = Mem.read m c := by
  induction bs generalizing m a with
  | nil => rfl
  | cons b bs ih =>
    rw [List.length_cons] at h
    rw [Mem.writeBytes, ih _ (by omega), Mem.read_write_ne _ _ (by omega)]

theorem Mem.read_writeBytes_inside {m : Mem} {a i : Nat} {bs : List Byte} (hwf : Mem.wf m = true)
    (hfit : a + bs.length ≤ 65536) (hi : i < bs.length) : Mem.read (Mem.writeBytes m a bs) (a + i) = bs[i] := by
  induction bs generalizing m a i with
  | nil => cases hi
  | cons b bs ih =>
    rw [List.length_cons] at hfit
    rw [Mem.writeBytes]
    cases i with
    | zero => rw [Mem.read_writeBytes_outside _ _ (by omega), Nat.add_zero, Mem.read_write_self b hwf]; rfl
    | succ i =>
      rw [show a + (i + 1) = a + 1 + i by omega]
      exact ih (Mem.wf_write b hwf (by omega)) (by omega) (Nat.lt_of_succ_lt_succ hi)

/-- Settles O3: `load` is `Mem.writeBytes` from address 0, or nothing. -/
theorem loadCopiesVerbatimOrRefuses : Obligations.LoadCopiesVerbatimOrRefuses := by
  intro s bs hwf
  split
  next hfit =>
    have hload : s.load bs = (.loadOk, { s with mem := Mem.writeBytes s.mem 0 bs }) := if_pos hfit
    have hend : 0 + bs.length ≤ 65536 := by omega
    rw [hload]
    refine ⟨rfl, fun i hi => ?_, fun a ha => ?_, Mem.wf_writeBytes bs hwf hend, rfl⟩
    · rw [← Mem.read_writeBytes_inside hwf hend hi, Nat.zero_add]
    · exact Mem.read_writeBytes_outside s.mem bs (.inr (by omega))
  next hlong => exact if_neg hlong

end Sys2Proof.Machine

/-! ### Words in memory (20_memory.md sections 2, 3 and 6) -/

namespace Sys2Proof

/-- The high byte shifted up and the low byte below it. -/
theorem wordOf_eq_shift_or (hi lo : Byte) : wordOf hi lo = (hi.setWidth 16 <<< 8) ||| lo.setWidth 16 := by
  rw [wordOf, BitVec.append_def, BitVec.shiftLeftZeroExtend_eq, BitVec.setWidth'_eq]

end Sys2Proof

namespace Sys2Proof.Machine

@[simp] theorem State.memRead_advance (s : State) (n a : Word) : (s.advance n).memRead a = s.memRead a := rfl

/-- A word stored elsewhere than at the port is in memory, high byte first. -/
theorem State.read_memWrite {s : State} {a : Word} (v : Word) (hwf : Mem.wf s.mem = true) (ha : a ≠ 0xFF01#16) :
    Mem.read (s.memWrite a v).mem a.toNat = highByte v ∧ Mem.read (s.memWrite a v).mem (a + 1).toNat = lowByte v := by
  have hstored := s.memWrite_storesWord a v hwf
  rw [StoresWord, if_neg ha] at hstored
  obtain ⟨hhigh, hlow, -, -⟩ := hstored
  exact ⟨hhigh, hlow⟩

theorem State.memRead_memWrite {s : State} {a : Word} (v : Word) (hwf : Mem.wf s.mem = true) (ha : a ≠ 0xFF01#16) :
    (s.memWrite a v).memRead a = v := by
  obtain ⟨hhigh, hlow⟩ := State.read_memWrite v hwf ha
  rw [State.memRead, Mem.readWord, hhigh, hlow, wordOf_bytes]

/-- Settles O5: reads by `wordOf_eq_shift_or`, fetches as they are defined, stores by `State.read_memWrite`. -/
theorem bigEndianReadFetchAndStore : Obligations.BigEndianReadFetchAndStore :=
  ⟨fun _ _ => wordOf_eq_shift_or _ _, fun _ => ⟨rfl, rfl⟩, fun _ _ v hwf ha => State.read_memWrite v hwf ha⟩

/-- Settles O7: at the port nothing is stored, so the read is the one before. -/
theorem wordReadAfterWrite : Obligations.WordReadAfterWrite := by
  intro s a v hwf
  split
  next hport => rw [hport, show (0xFF01#16 : Word) = portAddr from rfl, State.memWrite_port, State.memRead_emit]
  next helse => exact State.memRead_memWrite v hwf helse

/-- Settles O10: ST moves IP to the address it has stored at. -/
theorem storeIsSeenByNextFetch : Obligations.StoreIsSeenByNextFetch := by
  intro rd rs ro s _ hwf hrd hrs hro haddr hport
  have hallowed : (s.isIp (regIx rd) || s.isIp (regIx rs) || s.isIp (regIx ro)) = false := by simp [hrd, hrs, hro]
  refine ⟨_, unlessMisuse_allowed _ _ hallowed, ?_⟩
  calc State.fetchWord _ = (s.memWrite (s.ip + 2) (s.reg (regIx rs))).memRead (s.ip + 2) := by
        rw [State.fetchWord, State.ip_advance, State.memRead_advance, State.ip_memWrite, haddr]
    _ = s.reg (regIx rs) := State.memRead_memWrite _ hwf hport

/-- The registers after a PUSH and a POP: SP is back, and the popped register holds what was pushed. -/
theorem State.reg_popInto_pushWord {s : State} {d : RegIx} (v : Word) (j : RegIx) (hwf : Mem.wf s.mem = true)
    (hd : d ≠ s.params.regIp) (hsp : s.params.regIp ≠ s.params.regSp) (hport : s.sp - 2 ≠ 0xFF01#16) :
    ((s.pushWord v).popInto d).reg j =
      if j = s.params.regIp then s.ip + 4 else if j = d then v else if j = s.params.regSp then s.sp else s.reg j := by
  have hspPush : (s.pushWord v).sp = s.sp - 2 := by simp [State.sp, s.reg_pushWord v _ hsp, hsp.symm]
  have hipPush : (s.pushWord v).ip = s.ip + 2 := by simp [State.ip, s.reg_pushWord v _ hsp]
  have hword : (s.pushWord v).memRead (s.sp - 2) = v :=
    State.memRead_memWrite (s := s.setSp (s.sp - 2)) v hwf hport
  have hip : s.ip + 2 + 2 = s.ip + 4 := BitVec.add_assoc ..
  rw [State.reg_popInto _ j (by simpa using hd) (by simpa using hsp), State.pushWord_params, hspPush, hipPush, hword,
    BitVec.sub_add_cancel, hip, s.reg_pushWord v j hsp]
  split_ifs <;> rfl

/-- Settles O49: IP, SP, the popped register and the others by `State.reg_popInto_pushWord`. -/
theorem popAfterPushRestores : Obligations.PopAfterPushRestores := by
  intro rd rd' s hadm hwf hrd hrdSp hrd' hrdSp' hport
  obtain ⟨-, -, -, hsp, -⟩ := hadm
  have hreg := fun j => State.reg_popInto_pushWord (s.reg (regIx rd)) j hwf hrd' hsp.symm hport
  refine ⟨_, _, exec_push_of_allowed (not_or.2 ⟨hrd, hrdSp⟩), exec_pop_of_allowed (by simp [hrd', hrdSp']),
    ?_, ?_, ?_, fun j hj => ?_⟩
  · simp [State.sp, hreg, hsp, hrdSp'.symm]
  · simp [hreg, hrd']
  · simp [State.ip, hreg]
  · simp only [List.mem_cons, List.not_mem_nil, or_false, not_or] at hj
    obtain ⟨hjd, hjip⟩ := hj
    rw [hreg, if_neg hjip, if_neg hjd]
    split
    next h => rw [h, State.sp]
    next => rfl

end Sys2Proof.Machine

/-! ### What the ALU reads and writes (41_alu.md, 10_state.md section 5) -/

namespace Sys2Proof.Machine

/-- Settles O14: it is `alu_of_unknown`. -/
theorem aluUnknownOperation : Obligations.AluUnknownOperation :=
  fun _ a b f h => alu_of_unknown a b f h

/-- Settles O13: the results are the bitwise operations of words, which act bit by bit; the complement flips every bit
below 16. -/
theorem aluBitwise : Obligations.AluBitwise := by
  intro a b f i hi
  have hxnor : ∀ x y : Bool, (!(x ^^ y)) = (x == y) := by decide
  refine ⟨?_, ?_, ?_, ?_, ?_, ?_, ?_⟩
  · rw [alu_or, aluResult, BitVec.getLsbD_or]
  · rw [alu_nor, aluResult, BitVec.getLsbD_not, decide_eq_true hi, Bool.true_and, BitVec.getLsbD_or]
  · rw [alu_and, aluResult, BitVec.getLsbD_and]
  · rw [alu_nand, aluResult, BitVec.getLsbD_not, decide_eq_true hi, Bool.true_and, BitVec.getLsbD_and]
  · rw [alu_xor, aluResult, BitVec.getLsbD_xor]
  · rw [alu_xnor, aluResult, BitVec.getLsbD_not, decide_eq_true hi, Bool.true_and, BitVec.getLsbD_xor]
    exact hxnor _ _
  · simp only [List.forall_mem_cons]
    exact ⟨rfl, rfl, rfl, rfl, rfl, rfl, nofun⟩

/-- Settles O17: the incoming flags enter through `carryIn`, in the ops 9 and 10 alone. -/
theorem aluReadsOnlyCarry : Obligations.AluReadsOnlyCarry := by
  intro op a b f g hcarry
  by_cases hop : op = 9 ∨ op = 10
  · have hin : carryIn f = carryIn g := by rw [carryIn, carryIn, hcarry hop]
    obtain rfl | rfl := hop
    · rw [alu_adc, alu_adc, hin]
    · rw [alu_sbb, alu_sbb, hin]
  · have h9 : op.toNat ≠ 9 := fun h => hop (.inl (BitVec.eq_of_toNat_eq h))
    have h10 : op.toNat ≠ 10 := fun h => hop (.inr (BitVec.eq_of_toNat_eq h))
    unfold alu
    split
    case h_9 h => exact absurd h h9
    case h_10 h => exact absurd h h10
    all_goals rfl

theorem alu_of_bitwise {op : BitVec 4} (a b f : Word) (hlo : 3 ≤ op.toNat) (hhi : op.toNat ≤ 8) :
    ∃ c, alu op a b f = aluResult c false := by
  unfold alu
  interval_cases op.toNat <;> exact ⟨_, rfl⟩

theorem alu_flags_of_known {op : BitVec 4} (a b f : Word) (hlo : 1 ≤ op.toNat) (hhi : op.toNat ≤ 11) :
    ∃ c cf, (alu op a b f).flags = flagWord c cf := by
  by_cases hcmp : op.toNat = 11
  · rw [show op = 11 from BitVec.eq_of_toNat_eq hcmp]
    exact ⟨_, _, rfl⟩
  · obtain ⟨c, cf, halu⟩ := alu_eq_aluResult a b f hlo (by omega)
    exact ⟨c, cf, by rw [halu, aluResult]⟩

/-- Every flags word the ALU writes is that of a raw result and a carry, or the ALU-error bit alone. -/
theorem alu_flags_cases (op : BitVec 4) (a b f : Word) :
    (∃ c cf, (alu op a b f).flags = flagWord c cf) ∨ (alu op a b f).flags = 0x0040 := by
  by_cases hop : op.toNat = 0 ∨ 12 ≤ op.toNat
  · exact .inr (by rw [alu_of_unknown a b f hop])
  · exact .inl (alu_flags_of_known a b f (by omega) (by omega))

/-- Where the carry is false O is S (R201). -/
theorem flagO_eq_flagS_of_bitwise {op : BitVec 4} (a b f : Word) (hlo : 3 ≤ op.toNat) (hhi : op.toNat ≤ 8) :
    flagO (alu op a b f).flags = flagS (alu op a b f).flags := by
  obtain ⟨c, halu⟩ := alu_of_bitwise a b f hlo hhi
  obtain ⟨-, hs, ho, -⟩ := flagWord_spec c false
  rw [halu, aluResult, hs, ho, Bool.not_false, Bool.true_and]

/-- Zero has bit 15 clear, so a flags word never has both Z and S. -/
theorem flagS_eq_false_of_flagZ {c : Word} {cf : Bool} (h : flagZ (flagWord c cf) = true) :
    flagS (flagWord c cf) = false := by
  obtain ⟨hz, hs, -⟩ := flagWord_spec c cf
  rw [hz, decide_eq_true_eq] at h
  rw [hs, h]
  rfl

/-- Condition 8 is ¬Z or S ≠ Z, and fails only where Z and S are both set. -/
theorem condHolds_le {f : Word} (h : flagZ f = true → flagS f = false) : condHolds .le f = true := by
  cases hz : flagZ f with
  | false => simp [condHolds, hz]
  | true => simp [condHolds, hz, h hz]

/-- What 41_alu.md section 4 says of a flags word the ALU writes, whatever the operation. -/
def AluFlags (g : Word) : Prop :=
  ¬(flagZ g = true ∧ flagS g = true) ∧ (flagO g = true → flagS g = true ∧ flagC g = false) ∧
    (∀ i, 4 ≤ i → i ≠ 6 → g.getLsbD i = false) ∧ (flagE g = true → g = 0x0040) ∧ condHolds .le g = true

theorem aluFlags_flagWord (c : Word) (cf : Bool) : AluFlags (flagWord c cf) := by
  obtain ⟨-, hs, ho, hc, -⟩ := flagWord_spec c cf
  have hupper {i : Nat} (hi : 4 ≤ i) := getLsbD_flagWord_of_four_le c cf hi
  refine ⟨fun ⟨hz, hs⟩ => ?_, fun hov => ?_, fun i hi _ => hupper hi, fun he => ?_,
    condHolds_le flagS_eq_false_of_flagZ⟩
  · cases (flagS_eq_false_of_flagZ hz).symm.trans hs
  · rw [ho, Bool.and_eq_true, Bool.not_eq_true'] at hov
    obtain ⟨hcf, hsign⟩ := hov
    exact ⟨hs.trans hsign, hc.trans hcf⟩
  · cases (hupper (i := 6) (by decide)).symm.trans he

/-- The ALU-error bit is bit 6, alone. -/
theorem aluFlags_error : AluFlags 0x0040 := by
  refine ⟨by decide, by decide, fun i _ hi => ?_, fun _ => rfl, by decide⟩
  rw [show (0x0040 : Word) = BitVec.twoPow 16 6 from rfl, BitVec.getLsbD_twoPow, decide_eq_false hi.symm,
    Bool.and_false]

/-- Settles O16: `AluFlags` of either kind of flags word, and the clause on the ops 3 to 8. -/
theorem aluFlagConsequences : Obligations.AluFlagConsequences := by
  intro op a b f
  have hflags : AluFlags (alu op a b f).flags := by
    obtain ⟨c, cf, h⟩ | h := alu_flags_cases op a b f
    · exact h ▸ aluFlags_flagWord c cf
    · exact h ▸ aluFlags_error
  obtain ⟨hzs, ho, hupper, he, hle⟩ := hflags
  exact ⟨hzs, ho, flagO_eq_flagS_of_bitwise a b f, hupper, he, hle⟩

/-- Settles O19: a condition is a formula over Z, C, O and S. -/
theorem conditionsReadFourFlags : Obligations.ConditionsReadFourFlags := by
  intro cc f g h
  have hz : flagZ f = flagZ g := h 0 (by decide)
  have hc : flagC f = flagC g := h 1 (by decide)
  have ho : flagO f = flagO g := h 2 (by decide)
  have hs : flagS f = flagS g := h 3 (by decide)
  simp only [condHolds, hz, hc, ho, hs]

end Sys2Proof.Machine

/-! ### NOT and NEG (R151, R152) -/

namespace Sys2Proof

theorem decodeWords_not (rd : BitVec 4) (imm : Word) : decodeWords (ofNibbles 0 0 1 rd) imm = .not rd :=
  decodeWords_firstWord (i := .not rd) imm rfl nofun

theorem decodeWords_neg (rd : BitVec 4) (imm : Word) : decodeWords (ofNibbles 0 0 2 rd) imm = .neg rd :=
  decodeWords_firstWord (i := .neg rd) imm rfl nofun

end Sys2Proof

namespace Sys2Proof.Machine

theorem xor_ones_eq_not (v : Word) : v ^^^ 0xFFFF = ~~~v :=
  BitVec.xor_allOnes

theorem ofNat_sub_toNat_eq_neg (v : Word) : BitVec.ofNat 16 (65536 - v.toNat) = 0 - v := by
  bv_omega

/-- Settles O20: both instructions are `unaryForm`, of the complement and of the difference from 0. -/
theorem notAndNegComplete : Obligations.NotAndNegComplete := by
  constructor
  · simp only [xor_ones_eq_not]
    exact unaryRule_of_unaryForm decodeWords_not fun _ _ => rfl
  · simp only [ofNat_sub_toNat_eq_neg]
    exact unaryRule_of_unaryForm decodeWords_neg fun _ _ => rfl

end Sys2Proof.Machine

/-! ### JMP.cc [rd] (R263) -/

namespace Sys2Proof

theorem decodeWords_jmpInd (c rd : BitVec 4) (imm : Word) :
    decodeWords (ofNibbles 1 c rd 1) imm = .jmpInd (condOfBits c) rd := by
  rw [decodeWords_ofNibbles_jump]
  simp [decodeJump]

end Sys2Proof

namespace Sys2Proof.Machine

/-- Settles O30: JMP.cc [rd] is the checked jump to the word at the value of rd. -/
theorem jumpIndirectCompletes : Obligations.JumpIndirectCompletes :=
  ⟨decodeWords_jmpInd, fun _ _ _ _ => misuse_or_movesIp rfl⟩

end Sys2Proof.Machine

/-! ### The host's way back from a failure (70_reset_and_hazards.md section 1) -/

namespace Sys2Proof.Machine

/-- Settles O2: a reset is `State.resetWith` but for the events; the first step of a Faulted block's run ends it; a host
write and a load touch registers or memory alone. -/
theorem onlyResetReturnsToRunning : Obligations.OnlyResetReturnsToRunning := by
  intro s
  refine ⟨fun i => State.reg_resetWith s.params i, Mem.read_nil, rfl, rfl, rfl, fun c a w hs => ?_, fun _ _ => rfl,
    fun bs => ?_⟩
  · have hstep := hostStep_of_faulted hs
    exact ⟨hstep, fun n => runFuel_succ_of_ne_cont n hstep nofun⟩
  · unfold State.load
    split <;> rfl

/-- Settles O52: each word is decoded by computation. -/
theorem sampleWordsDecode : Obligations.SampleWordsDecode := by
  unfold Obligations.SampleWordsDecode
  decide

end Sys2Proof.Machine
